-- ==== Sys2Proof/Word.lean ====
section
/-! DEFINITION. The word types of the CHIP-8 core (spec/00_scope.md R8, R10; spec/30_encoding.md R61).
Every value is unsigned (R10). -/

namespace Sys2Proof

/-- An 8-bit value: a general register, a timer, a byte of memory, an immediate `kk`. -/
abbrev Byte := BitVec 8

/-- A 16-bit value: the index register, the program counter, a stack slot, an instruction word. -/
abbrev Word := BitVec 16

/-- The 12-bit address field `nnn` of an instruction word. -/
abbrev Addr12 := BitVec 12

/-- A 4-bit field of an instruction word used as a count or ignored (`n`). -/
abbrev Nibble := BitVec 4

/-- The number of a general register, V0..VF (spec/10_state.md R15). -/
abbrev Reg := Fin 16

end Sys2Proof
end

