-- ==== Sys2Proof/Machine/Flags.lean ====
section
/-! DEFINITION. The results and flags of the register arithmetic (spec/42_alu.md R107..R118). Operands are
read as unsigned integers, the result is computed exactly and narrowed at the end (R10, R118). A flag is
the byte 1 or 0 written to VF (R16). -/

namespace Sys2Proof.Machine

/-- A flag as the byte VF receives. -/
def flagByte (c : Bool) : Byte := if c then 1 else 0

/-- `trunc_8(a + b)` (R107, R113). -/
def addResult (a b : Byte) : Byte := BitVec.ofNat 8 (a.toNat + b.toNat)

/-- Carry: 1 iff `a + b > 255` (R113). -/
def addFlag (a b : Byte) : Byte := flagByte (decide (255 < a.toNat + b.toNat))

/-- `trunc_8(a - b)`, the minuend first (R114). -/
def subResult (a b : Byte) : Byte := BitVec.ofInt 8 ((a.toNat : Int) - (b.toNat : Int))

/-- No borrow: 1 iff minuend ≥ subtrahend (R114). -/
def subFlag (a b : Byte) : Byte := flagByte (decide (b.toNat ≤ a.toNat))

/-- `s >> 1`, the vacated bit 0 (R115). -/
def shrResult (a : Byte) : Byte := a >>> 1

/-- The bit shifted out on the right, bit 0 before the shift (R115). -/
def shrFlag (a : Byte) : Byte := flagByte (a.getLsbD 0)

/-- `trunc_8(s << 1)` (R117). -/
def shlResult (a : Byte) : Byte := a <<< 1

/-- The bit shifted out on the left, bit 7 before the shift (R117). -/
def shlFlag (a : Byte) : Byte := flagByte (a.getLsbD 7)

end Sys2Proof.Machine
end

