-- ==== Sys2Proof/Syntax.lean ====
section
/-! DEFINITION. The instruction set as syntax: one constructor for each of the 35 rows of
spec/opcode_table.json (spec/30_encoding.md R71), each with the fields the row gives it. -/

namespace Sys2Proof

/-- An instruction (R71). `x`, `y` name registers, `kk` is the byte, `nnn` the address, `n` a nibble.
The words of no row (unassigned subcodes, R72) are no instruction: see `Decoded` in Decode.lean. -/
inductive Instr where
  /-- `0NNN`, SYS NNN (R91); never with the words 00E0 and 00EE, see WellFormed.lean. -/
  | sysNnn (nnn : Addr12)
  /-- `00E0`, CLS (R134). -/
  | cls
  /-- `00EE`, RET (R92). -/
  | ret
  /-- `1NNN`, JP NNN (R93). -/
  | jpNnn (nnn : Addr12)
  /-- `2NNN`, CALL NNN (R95). -/
  | callNnn (nnn : Addr12)
  /-- `3XKK`, SE VX, KK (R96). -/
  | seVxKk (x : Reg) (kk : Byte)
  /-- `4XKK`, SNE VX, KK (R97). -/
  | sneVxKk (x : Reg) (kk : Byte)
  /-- `5XYn`, SE VX, VY (R98); `n` is the nibble that is ignored (R69). -/
  | seVxVy (x y : Reg) (n : Nibble)
  /-- `6XKK`, LD VX, KK (R106). -/
  | ldVxKk (x : Reg) (kk : Byte)
  /-- `7XKK`, ADD VX, KK (R107). -/
  | addVxKk (x : Reg) (kk : Byte)
  /-- `8XY0`, LD VX, VY (R109). -/
  | ldVxVy (x y : Reg)
  /-- `8XY1`, OR VX, VY (R110). -/
  | orVxVy (x y : Reg)
  /-- `8XY2`, AND VX, VY (R111). -/
  | andVxVy (x y : Reg)
  /-- `8XY3`, XOR VX, VY (R112). -/
  | xorVxVy (x y : Reg)
  /-- `8XY4`, ADD VX, VY (R113). -/
  | addVxVy (x y : Reg)
  /-- `8XY5`, SUB VX, VY (R114). -/
  | subVxVy (x y : Reg)
  /-- `8XY6`, SHR VX, VY (R115). -/
  | shrVxVy (x y : Reg)
  /-- `8XY7`, SUBN VX, VY (R116). -/
  | subnVxVy (x y : Reg)
  /-- `8XYE`, SHL VX, VY (R117). -/
  | shlVxVy (x y : Reg)
  /-- `9XYn`, SNE VX, VY (R99); `n` is the nibble that is ignored (R69). -/
  | sneVxVy (x y : Reg) (n : Nibble)
  /-- `ANNN`, LD I, NNN (R126). -/
  | ldINnn (nnn : Addr12)
  /-- `BNNN`, JP V0, NNN (R94). -/
  | jpV0Nnn (nnn : Addr12)
  /-- `CXKK`, RND VX, KK (R139). -/
  | rndVxKk (x : Reg) (kk : Byte)
  /-- `DXYN`, DRW VX, VY, N (R136). -/
  | drwVxVyN (x y : Reg) (n : Nibble)
  /-- `EX9E`, SKP VX (R144). -/
  | skpVx (x : Reg)
  /-- `EXA1`, SKNP VX (R145). -/
  | sknpVx (x : Reg)
  /-- `FX07`, LD VX, DT (R140). -/
  | ldVxDt (x : Reg)
  /-- `FX0A`, LD VX, K (R143). -/
  | ldVxK (x : Reg)
  /-- `FX15`, LD DT, VX (R141). -/
  | ldDtVx (x : Reg)
  /-- `FX18`, LD ST, VX (R142). -/
  | ldStVx (x : Reg)
  /-- `FX1E`, ADD I, VX (R127). -/
  | addIVx (x : Reg)
  /-- `FX29`, LD F, VX (R128). -/
  | ldFVx (x : Reg)
  /-- `FX33`, LD B, VX (R129). -/
  | ldBVx (x : Reg)
  /-- `FX55`, LD [I], VX (R130). -/
  | ldMemVx (x : Reg)
  /-- `FX65`, LD VX, [I] (R131). -/
  | ldVxMem (x : Reg)
deriving DecidableEq, Repr

/-- The number of the instruction's row in the opcode map of R71. -/
def Instr.tableRow : Instr → Nat
  | .sysNnn _ => 1
  | .cls => 2
  | .ret => 3
  | .jpNnn _ => 4
  | .callNnn _ => 5
  | .seVxKk _ _ => 6
  | .sneVxKk _ _ => 7
  | .seVxVy _ _ _ => 8
  | .ldVxKk _ _ => 9
  | .addVxKk _ _ => 10
  | .ldVxVy _ _ => 11
  | .orVxVy _ _ => 12
  | .andVxVy _ _ => 13
  | .xorVxVy _ _ => 14
  | .addVxVy _ _ => 15
  | .subVxVy _ _ => 16
  | .shrVxVy _ _ => 17
  | .subnVxVy _ _ => 18
  | .shlVxVy _ _ => 19
  | .sneVxVy _ _ _ => 20
  | .ldINnn _ => 21
  | .jpV0Nnn _ => 22
  | .rndVxKk _ _ => 23
  | .drwVxVyN _ _ _ => 24
  | .skpVx _ => 25
  | .sknpVx _ => 26
  | .ldVxDt _ => 27
  | .ldVxK _ => 28
  | .ldDtVx _ => 29
  | .ldStVx _ => 30
  | .addIVx _ => 31
  | .ldFVx _ => 32
  | .ldBVx _ => 33
  | .ldMemVx _ => 34
  | .ldVxMem _ => 35

end Sys2Proof
end

