-- ==== Sys2Proof/Decode.lean ====
section
/-! DEFINITION. The decoder (spec/30_encoding.md R61..R74) and, after it, the encoder written from the
same table (R71). Byte order is big-endian (spec/20_memory.md R44). Log 1 (patterns), log 11 (families
0, 5, 9 and E), log 12 (unassigned subcodes). -/

namespace Sys2Proof

/-! ### Fields of the instruction word (R61) -/

/-- `op = w[15:12]`. -/
def fieldOp (w : Word) : Nibble := w.extractLsb' 12 4

/-- `x = w[11:8]`. -/
def fieldX (w : Word) : Reg := (w.extractLsb' 8 4).toFin

/-- `y = w[7:4]`. -/
def fieldY (w : Word) : Reg := (w.extractLsb' 4 4).toFin

/-- `n = w[3:0]`. -/
def fieldN (w : Word) : Nibble := w.extractLsb' 0 4

/-- `kk = w[7:0]`. -/
def fieldKk (w : Word) : Byte := w.extractLsb' 0 8

/-- `nnn = w[11:0]`. -/
def fieldNnn (w : Word) : Addr12 := w.extractLsb' 0 12

/-- `hi = w[15:8]`. -/
def fieldHi (w : Word) : Byte := w.extractLsb' 8 8

/-- The word of two bytes, the first the high byte (R44). -/
def joinBytes (hi lo : Byte) : Word := hi ++ lo

/-! ### The decoder -/

/-- What a word decodes to: one of the 35 instructions, or an unassigned subcode of a recognised
family (R70, R72, R74). -/
inductive Decoded where
  | instr (i : Instr)
  | unassigned (w : Word)
deriving DecidableEq, Repr

/-- Why a list of bytes is rejected: every word decodes (R70), so the only reason is that two bytes are
not there. -/
inductive DecodeError where
  /-- Fewer than two bytes are given. -/
  | truncated
deriving DecidableEq, Repr

/-- Family 0, on the whole word (R65). -/
def decodeFamily0 (w : Word) : Decoded :=
  if w = 0x00E0 then .instr .cls
  else if w = 0x00EE then .instr .ret
  else .instr (.sysNnn (fieldNnn w))

/-- Family 8, on the low nibble (R66). -/
def decodeFamily8 (w : Word) : Decoded :=
  match fieldN w with
  | 0x0 => .instr (.ldVxVy (fieldX w) (fieldY w))
  | 0x1 => .instr (.orVxVy (fieldX w) (fieldY w))
  | 0x2 => .instr (.andVxVy (fieldX w) (fieldY w))
  | 0x3 => .instr (.xorVxVy (fieldX w) (fieldY w))
  | 0x4 => .instr (.addVxVy (fieldX w) (fieldY w))
  | 0x5 => .instr (.subVxVy (fieldX w) (fieldY w))
  | 0x6 => .instr (.shrVxVy (fieldX w) (fieldY w))
  | 0x7 => .instr (.subnVxVy (fieldX w) (fieldY w))
  | 0xE => .instr (.shlVxVy (fieldX w) (fieldY w))
  | _ => .unassigned w

/-- Family E, on the low byte (R67). -/
def decodeFamilyE (w : Word) : Decoded :=
  match fieldKk w with
  | 0x9E => .instr (.skpVx (fieldX w))
  | 0xA1 => .instr (.sknpVx (fieldX w))
  | _ => .unassigned w

/-- Family F, on the low byte (R68). -/
def decodeFamilyF (w : Word) : Decoded :=
  match fieldKk w with
  | 0x07 => .instr (.ldVxDt (fieldX w))
  | 0x0A => .instr (.ldVxK (fieldX w))
  | 0x15 => .instr (.ldDtVx (fieldX w))
  | 0x18 => .instr (.ldStVx (fieldX w))
  | 0x1E => .instr (.addIVx (fieldX w))
  | 0x29 => .instr (.ldFVx (fieldX w))
  | 0x33 => .instr (.ldBVx (fieldX w))
  | 0x55 => .instr (.ldMemVx (fieldX w))
  | 0x65 => .instr (.ldVxMem (fieldX w))
  | _ => .unassigned w

/-- The decoder of one word: first level on the top nibble (R64), then R65 to R69; total (R70). -/
def decodeWord (w : Word) : Decoded :=
  match fieldOp w with
  | 0x0 => decodeFamily0 w
  | 0x1 => .instr (.jpNnn (fieldNnn w))
  | 0x2 => .instr (.callNnn (fieldNnn w))
  | 0x3 => .instr (.seVxKk (fieldX w) (fieldKk w))
  | 0x4 => .instr (.sneVxKk (fieldX w) (fieldKk w))
  | 0x5 => .instr (.seVxVy (fieldX w) (fieldY w) (fieldN w))
  | 0x6 => .instr (.ldVxKk (fieldX w) (fieldKk w))
  | 0x7 => .instr (.addVxKk (fieldX w) (fieldKk w))
  | 0x8 => decodeFamily8 w
  | 0x9 => .instr (.sneVxVy (fieldX w) (fieldY w) (fieldN w))
  | 0xA => .instr (.ldINnn (fieldNnn w))
  | 0xB => .instr (.jpV0Nnn (fieldNnn w))
  | 0xC => .instr (.rndVxKk (fieldX w) (fieldKk w))
  | 0xD => .instr (.drwVxVyN (fieldX w) (fieldY w) (fieldN w))
  | 0xE => decodeFamilyE w
  | _ => decodeFamilyF w  -- 0xF, the one value left

/-- The decoder over bytes as memory holds them: the first two bytes, high byte first, and the rest. -/
def decodeBytes : List Byte → Except DecodeError (Decoded × List Byte)
  | hi :: lo :: rest => .ok (decodeWord (joinBytes hi lo), rest)
  | _ => .error .truncated

/-! ### The encoder (R63, R71) -/

/-- Format `A`: `cccc nnnn nnnn nnnn`. -/
def packA (op : BitVec 4) (nnn : Addr12) : Word := op ++ nnn

/-- Format `XK`: `cccc xxxx kkkk kkkk`; also `XS`, with the low byte the subcode. -/
def packXK (op : BitVec 4) (x : Reg) (kk : Byte) : Word :=
  op ++ BitVec.ofFin (w := 4) x ++ kk

/-- Formats `XY` and `XYN`: `cccc xxxx yyyy cccc`. -/
def packXY (op : BitVec 4) (x y : Reg) (n : Nibble) : Word :=
  op ++ BitVec.ofFin (w := 4) x ++ BitVec.ofFin (w := 4) y ++ n

/-- The word of an instruction, row by row of R71. -/
def encode : Instr → Word
  | .sysNnn nnn => packA 0x0 nnn
  | .cls => 0x00E0
  | .ret => 0x00EE
  | .jpNnn nnn => packA 0x1 nnn
  | .callNnn nnn => packA 0x2 nnn
  | .seVxKk x kk => packXK 0x3 x kk
  | .sneVxKk x kk => packXK 0x4 x kk
  | .seVxVy x y n => packXY 0x5 x y n
  | .ldVxKk x kk => packXK 0x6 x kk
  | .addVxKk x kk => packXK 0x7 x kk
  | .ldVxVy x y => packXY 0x8 x y 0x0
  | .orVxVy x y => packXY 0x8 x y 0x1
  | .andVxVy x y => packXY 0x8 x y 0x2
  | .xorVxVy x y => packXY 0x8 x y 0x3
  | .addVxVy x y => packXY 0x8 x y 0x4
  | .subVxVy x y => packXY 0x8 x y 0x5
  | .shrVxVy x y => packXY 0x8 x y 0x6
  | .subnVxVy x y => packXY 0x8 x y 0x7
  | .shlVxVy x y => packXY 0x8 x y 0xE
  | .sneVxVy x y n => packXY 0x9 x y n
  | .ldINnn nnn => packA 0xA nnn
  | .jpV0Nnn nnn => packA 0xB nnn
  | .rndVxKk x kk => packXK 0xC x kk
  | .drwVxVyN x y n => packXY 0xD x y n
  | .skpVx x => packXK 0xE x 0x9E
  | .sknpVx x => packXK 0xE x 0xA1
  | .ldVxDt x => packXK 0xF x 0x07
  | .ldVxK x => packXK 0xF x 0x0A
  | .ldDtVx x => packXK 0xF x 0x15
  | .ldStVx x => packXK 0xF x 0x18
  | .addIVx x => packXK 0xF x 0x1E
  | .ldFVx x => packXK 0xF x 0x29
  | .ldBVx x => packXK 0xF x 0x33
  | .ldMemVx x => packXK 0xF x 0x55
  | .ldVxMem x => packXK 0xF x 0x65

/-- The two bytes of an instruction as memory holds them, high byte first (R44). -/
def encodeBytes (i : Instr) : List Byte := [fieldHi (encode i), fieldKk (encode i)]

/-! ### The opcode map as data (R71) -/

/-- A row of the opcode map: its number, mask and match. -/
structure OpcodeRow where
  number : Nat
  mask : Word
  pattern : Word
deriving DecidableEq, Repr

/-- The 35 rows of R71, in its order. -/
def opcodeMap : List OpcodeRow :=
  [⟨1, 0xF000, 0x0000⟩, ⟨2, 0xFFFF, 0x00E0⟩, ⟨3, 0xFFFF, 0x00EE⟩, ⟨4, 0xF000, 0x1000⟩,
   ⟨5, 0xF000, 0x2000⟩, ⟨6, 0xF000, 0x3000⟩, ⟨7, 0xF000, 0x4000⟩, ⟨8, 0xF000, 0x5000⟩,
   ⟨9, 0xF000, 0x6000⟩, ⟨10, 0xF000, 0x7000⟩] ++
  [⟨11, 0xF00F, 0x8000⟩, ⟨12, 0xF00F, 0x8001⟩, ⟨13, 0xF00F, 0x8002⟩, ⟨14, 0xF00F, 0x8003⟩,
   ⟨15, 0xF00F, 0x8004⟩, ⟨16, 0xF00F, 0x8005⟩, ⟨17, 0xF00F, 0x8006⟩, ⟨18, 0xF00F, 0x8007⟩,
   ⟨19, 0xF00F, 0x800E⟩, ⟨20, 0xF000, 0x9000⟩, ⟨21, 0xF000, 0xA000⟩, ⟨22, 0xF000, 0xB000⟩] ++
  [⟨23, 0xF000, 0xC000⟩, ⟨24, 0xF000, 0xD000⟩, ⟨25, 0xF0FF, 0xE09E⟩, ⟨26, 0xF0FF, 0xE0A1⟩,
   ⟨27, 0xF0FF, 0xF007⟩, ⟨28, 0xF0FF, 0xF00A⟩, ⟨29, 0xF0FF, 0xF015⟩, ⟨30, 0xF0FF, 0xF018⟩,
   ⟨31, 0xF0FF, 0xF01E⟩, ⟨32, 0xF0FF, 0xF029⟩, ⟨33, 0xF0FF, 0xF033⟩, ⟨34, 0xF0FF, 0xF055⟩,
   ⟨35, 0xF0FF, 0xF065⟩]

/-- The word lies in the row; row 1 matches only when rows 2 and 3 do not (R71). -/
def OpcodeRow.holds (r : OpcodeRow) (w : Word) : Bool :=
  w &&& r.mask == r.pattern && (r.number != 1 || (w != 0x00E0 && w != 0x00EE))

/-! ### What the host asks the decoder -/

/-- The instruction's word when its bits are numbered as spec/opcode_table.json numbers them: bit 0 is
the least significant bit of the one 16-bit word. Bits at `nbits` and above are 0. -/
def tableWord (nbits w : Nat) : Word := BitVec.ofNat 16 (w % 2 ^ nbits)

/-- The instruction the decoder reads from the table's bits, laid out as the hardware stores them. -/
def decodeTableWord (nbits w : Nat) : Option Instr :=
  match decodeBytes [fieldHi (tableWord nbits w), fieldKk (tableWord nbits w)] with
  | .ok (.instr i, _) => some i
  | _ => none

end Sys2Proof
end

