-- ==== Sys2Proof/Config.lean ====
section
/-! DEFINITION. What one machine fixes (spec/00_scope.md R8) and the values the spec leaves free.
The parameters that change behaviour (`FONT`, `SHIFT_USES_VY`) stand in Machine/Parameters.lean. -/

namespace Sys2Proof.Config

/-- `MEM_SIZE`: addresses 0x000..0xFFF (R8, spec/10_state.md R29). -/
@[simp] abbrev memSize : Nat := 4096

/-- `RESERVED_HI`: the last address of the font and reserved area (R8, spec/20_memory.md R42). -/
@[simp] abbrev reservedHi : Nat := 0x1FF

/-- `PROGRAM_BASE`: where `loadProgram` puts the program's first byte (R8). -/
@[simp] abbrev programBase : Nat := 0x200

/-- `MAX_PROGRAM`: 4096 − 0x200 bytes (R8). -/
@[simp] abbrev maxProgram : Nat := 3584

/-- `PC_RESET` (R8). -/
def pcReset : Word := 0x200

/-- `STACK_DEPTH` (R8). -/
@[simp] abbrev stackDepth : Nat := 16

/-- `FB_W`: pixels in a row (R8). -/
@[simp] abbrev fbWidth : Nat := 64

/-- `FB_H`: rows (R8). -/
@[simp] abbrev fbHeight : Nat := 32

/-- `NUM_KEYS` (R8). -/
@[simp] abbrev numKeys : Nat := 16

/-- FREE VALUE. The random byte given to the step whose number is the argument
(`rand8`, spec/45_random_timers_keys.md R138, D21): under no law. Log 18: DESIGN CHOICE. -/
opaque rand8 : Nat → Byte

/-- FREE VALUE. The byte that a failed `loadProgram` of the given program, over the given memory,
leaves at the given address ("the memory contents are unspecified",
spec/70_reset_and_hazards.md R172, U7). Log 21: UNVERIFIED. -/
opaque byteAfterFailedLoad : List Byte → List Host.Cell → Nat → Byte

end Sys2Proof.Config
end

