-- ==== Sys2Proof/Machine/Parameters.lean ====
section
/-! DEFINITION. The parameters of spec/00_scope.md R8 that decide behaviour and that the spec gives a
default of its own: `FONT` (D18, log 2) and `SHIFT_USES_VY` (D15, log 3). The third, `DRAW_OOB` = clip
(D16, log 4), is `pixelOnGrid` of Machine/Operands.lean. -/

namespace Sys2Proof.Machine

/-- `FONT`: the 80 bytes of spec/10_state.md R33, one glyph a line. Log 2: UNVERIFIED. -/
def font : List Byte :=
  [0xF0, 0x90, 0x90, 0x90, 0xF0] ++  -- 0
  [0x20, 0x60, 0x20, 0x20, 0x70] ++  -- 1
  [0xF0, 0x10, 0xF0, 0x80, 0xF0] ++  -- 2
  [0xF0, 0x10, 0xF0, 0x10, 0xF0] ++  -- 3
  [0x90, 0x90, 0xF0, 0x10, 0x10] ++  -- 4
  [0xF0, 0x80, 0xF0, 0x10, 0xF0] ++  -- 5
  [0xF0, 0x80, 0xF0, 0x90, 0xF0] ++  -- 6
  [0xF0, 0x10, 0x20, 0x40, 0x40] ++  -- 7
  [0xF0, 0x90, 0xF0, 0x90, 0xF0] ++  -- 8
  [0xF0, 0x90, 0xF0, 0x10, 0xF0] ++  -- 9
  [0xF0, 0x90, 0xF0, 0x90, 0x90] ++  -- A
  [0xE0, 0x90, 0xE0, 0x90, 0xE0] ++  -- B
  [0xF0, 0x80, 0x80, 0x80, 0xF0] ++  -- C
  [0xE0, 0x90, 0x90, 0x90, 0xE0] ++  -- D
  [0xF0, 0x80, 0xF0, 0x80, 0xF0] ++  -- E
  [0xF0, 0x80, 0xF0, 0x80, 0x80]     -- F

/-- `SHIFT_USES_VY`: whether 8XY6 and 8XYE shift Vy instead of Vx; the spec's default is false
(R115, R117, D15). Log 3: UNVERIFIED. -/
def shiftUsesVy : Bool := false

end Sys2Proof.Machine
end

