-- ==== Sys2Proof/Machine/State.lean ====
section
/-! DEFINITION. The architectural state (spec/10_state.md R15..R34), the errors a step can report
(spec/60_exceptions.md R150), and the state after `initialize()` (R32). State is plain data. -/

namespace Sys2Proof.Machine

/-- The errors of R150, with the information R150 says each records: `pc0` is the address of the
instruction that raised it, `w` its word. Each ends the step (and the machine, until `initialize()`):
the spec's own treatment, hence safe (log 17). -/
inductive Fault where
  /-- Code 1. No word raises it (R73, R155): kept so that the type is the spec's taxonomy. Safe. -/
  | unknownOpcode (pc0 w : Word)
  /-- Code 2. Raised by CALL with SP = 16 (R95, R151). Safe. -/
  | stackOverflow (pc0 w : Word)
  /-- Code 3. Raised by RET with SP = 0 (R92, R151). Safe. -/
  | stackUnderflow (pc0 w : Word)
  /-- Code 4. Raised by the fetch (`w` absent) and by DRW, LD B, LD [I], LD Vx,[I], at the first
  address of 4096 or more (R47, R152). Safe. -/
  | addressOutOfRange (pc0 : Word) (w : Option Word) (addr : Nat)
  /-- Code 5. Raised by LD B and LD [I] at the first address of 0x1FF or less (R48, R153). Safe. -/
  | reservedWrite (pc0 w : Word) (addr : Nat)
  /-- Code 6. Raised by SKP and SKNP when V[x] is no key (R144, R145, R154). Safe. -/
  | keyOutOfRange (pc0 w : Word) (key : Byte)
  /-- Code 7. Raised by `loadProgram`, never by a step (R157, R172). Safe. -/
  | oversizedProgram (length : Nat)
deriving DecidableEq, Repr

/-- The run status (R31). -/
inductive Status where
  /-- "ready to execute next instruction". -/
  | ready
  /-- A step ended in the error (R150); no further step until `initialize()`. -/
  | failed (e : Fault)
  /-- A `loadProgram` failed (R172); no step until `initialize()`. -/
  | unloadable
deriving DecidableEq, Repr, Inhabited

/-- Why the model gives no next state and no error of the spec. -/
inductive Refusal where
  /-- Raised by an arm of `exec` for an instruction that has no meaning yet: no arm does now. Safe. -/
  | notModelled (mnemonic : String)
  /-- Raised by `step` when the status is not Ready: the host may not ask for this step, and a host that
  does is outside the spec (R31, R81, R161, U13). Safe. -/
  | stepNotPermitted (status : Status)
deriving DecidableEq, Repr

/-- Memory as (address, byte) pairs in one canonical form (Ops.lean, `Memory.wf`): addresses strictly
rising, all below 4096, no byte equal to what an unlisted address reads as, which is the byte that
`initialize()` puts there. Log 23: DEDUCED. -/
abbrev Memory := List Host.Cell

/-- The 64×32 grid of 1-bit pixels, row by row: row `py`, column `px` (R26). -/
abbrev Framebuffer := Vector (Vector Bool 64) 32

/-- The whole state of one machine (spec/10_state.md, head). -/
structure State where
  /-- The 4096 bytes of memory (R29). -/
  mem : Memory
  /-- V0..VF; VF, number 15, is also the flag (R15, R16). -/
  v : Vector Byte 16
  /-- The index register I (R19). -/
  i : Word
  /-- The program counter PC (R20). -/
  pc : Word
  /-- The 16 slots of return addresses (R22). -/
  stack : Vector Word 16
  /-- The stack pointer SP, in 0..16, one past the used slot (R22). -/
  sp : Fin 17
  /-- The delay timer DT (R24). -/
  dt : Byte
  /-- The sound timer ST (R25). -/
  st : Byte
  /-- The framebuffer (R26). -/
  fb : Framebuffer
  /-- The dirty flag (R27). -/
  dirty : Bool
  /-- The keypad's pressed flags (R28). -/
  key : Vector Bool 16
  /-- The run status (R31). -/
  status : Status
  /-- The MODEL's own field: the number of draws given so far, which picks the free value `rand8` of
  the next step (R138). Log 18: DESIGN CHOICE. -/
  drawCount : Nat
deriving DecidableEq, Repr, Inhabited

/-- The framebuffer with every pixel 0. -/
def clearFramebuffer : Framebuffer := Vector.replicate 32 (Vector.replicate 64 false)

/-- The state right after `initialize()` (R32, R171). Memory lists nothing: every byte is the one
`initialize()` puts there. `drawCount` is the model's own, DESIGN CHOICE 0 (log 18). -/
def State.reset : State where
  mem := []
  v := Vector.replicate 16 0
  i := 0
  pc := Config.pcReset
  stack := Vector.replicate 16 0
  sp := 0
  dt := 0
  st := 0
  fb := clearFramebuffer
  dirty := false
  key := Vector.replicate 16 false
  status := .ready
  drawCount := 0

end Sys2Proof.Machine
end

