-- ==== Sys2Proof/Machine/Ops.lean ====
section
/-! DEFINITION. The named operations over memory and registers that the meanings share: memory and its
canonical form, the checks of an access, the registers, the stack, fetch, advance, tick, and raising an
error as ONE operation. -/

namespace Sys2Proof.Machine

/-! ### Memory (spec/20_memory.md) -/

/-- What `initialize()` puts at an address: the font at 0x000..0x04F, zero above (R32, R171). It is what
an address that memory does not list reads as. -/
def resetByte (a : Nat) : Byte := (font[a]?).getD 0

/-- The byte at an address; the address is checked by the caller (R47). -/
def Memory.read (m : Memory) (a : Nat) : Byte :=
  match m with
  | [] => resetByte a
  | (b, v) :: rest => if b = a then v else Memory.read rest a

/-- The byte of the machine's memory at an address. -/
def State.readByte (s : State) (a : Nat) : Byte := Memory.read s.mem a

/-- The memory without an entry for the address. -/
def Memory.erase (m : Memory) (a : Nat) : Memory :=
  match m with
  | [] => []
  | (b, v) :: rest => if b = a then Memory.erase rest a else (b, v) :: Memory.erase rest a

/-- The memory with the pair put in its place, before the first higher address. -/
def Memory.insert (m : Memory) (a : Nat) (x : Byte) : Memory :=
  match m with
  | [] => [(a, x)]
  | (b, v) :: rest =>
    if a < b then (a, x) :: (b, v) :: rest
    else if b = a then (a, x) :: rest
    else (b, v) :: Memory.insert rest a x

/-- Store a byte, keeping the canonical form: a byte equal to what the unlisted address reads as removes
the entry. The address is checked by the caller (R47, R48). -/
def Memory.write (m : Memory) (a : Nat) (x : Byte) : Memory :=
  if x = resetByte a then Memory.erase m a else Memory.insert m a x

/-- Store bytes at increasing addresses (R45). -/
def Memory.writeBytes (m : Memory) (a : Nat) (bytes : List Byte) : Memory :=
  match bytes with
  | [] => m
  | b :: rest => Memory.writeBytes (Memory.write m a b) (a + 1) rest

/-- Put a word at `[a, a+1]`, high byte first (R44), as a load does. A byte whose address would be 4096 or
above has nowhere to go. -/
def Memory.storeWord (m : Memory) (a : Nat) (w : Word) : Memory :=
  if a + 1 < Config.memSize then Memory.writeBytes m a [fieldHi w, fieldKk w]
  else if a < Config.memSize then Memory.write m a (fieldHi w)
  else m

/-- The `n` bytes from an address on, in increasing order (R45). -/
def Memory.readBytes (m : Memory) (a : Nat) (n : Nat) : List Byte :=
  match n with
  | 0 => []
  | n + 1 => Memory.read m a :: Memory.readBytes m (a + 1) n

/-- The canonical form: addresses strictly rising and below 4096, no byte equal to the reset byte. -/
def Memory.wf (m : Memory) : Bool :=
  match m with
  | [] => true
  | (a, x) :: rest =>
    a < Config.memSize && x != resetByte a && rest.all (fun c => a < c.1) && Memory.wf rest

/-- The canonical memory whose byte at each address below 4096 is the given one. -/
def Memory.ofBytes (f : Nat → Byte) : Memory :=
  (List.range Config.memSize).filterMap fun a => if f a = resetByte a then none else some (a, f a)

/-! ### Errors (spec/60_exceptions.md) -/

/-- Why a handler stops, before `pc0` and `w` are recorded (R150). -/
inductive ErrorCause where
  | stackOverflow
  | stackUnderflow
  | addressOutOfRange (addr : Nat)
  | reservedWrite (addr : Nat)
  | keyOutOfRange (key : Byte)
deriving DecidableEq, Repr

/-- The address of the instruction whose handler runs: PC was advanced by 2 before dispatch (R83), so
it is PC − 2 modulo 2^16. Log 24: DEDUCED. -/
def State.instrAddr (s : State) : Word := s.pc - 2

/-- The error of a cause, with the instruction's address and word recorded (R150). -/
def ErrorCause.toFault (c : ErrorCause) (pc0 w : Word) : Fault :=
  match c with
  | .stackOverflow => .stackOverflow pc0 w
  | .stackUnderflow => .stackUnderflow pc0 w
  | .addressOutOfRange a => .addressOutOfRange pc0 (some w) a
  | .reservedWrite a => .reservedWrite pc0 w a
  | .keyOutOfRange k => .keyOutOfRange pc0 w k

/-- `raise E(info)` in the handler of instruction `i`: the step ends at once with the error, no later
statement runs (R11, R150, R160). Log 17: UNVERIFIED. -/
def raise (c : ErrorCause) (i : Instr) (s : State) : Host.Outcome State Fault Refusal :=
  .fault (c.toFault s.instrAddr (encode i))

/-- The address of the instruction an error records (R150); a failed load has none. -/
def Fault.pc0 : Fault → Option Word
  | .unknownOpcode pc0 _ | .stackOverflow pc0 _ | .stackUnderflow pc0 _
  | .addressOutOfRange pc0 _ _ | .reservedWrite pc0 _ _ | .keyOutOfRange pc0 _ _ => some pc0
  | .oversizedProgram _ => none

/-- The instruction word an error records (R150); a failed fetch and a failed load have none. -/
def Fault.word : Fault → Option Word
  | .unknownOpcode _ w | .stackOverflow _ w | .stackUnderflow _ w
  | .reservedWrite _ w _ | .keyOutOfRange _ w _ => some w
  | .addressOutOfRange _ w _ => w
  | .oversizedProgram _ => none

/-- The numeric code of an error (R150). -/
def Fault.code : Fault → Nat
  | .unknownOpcode _ _ => 1
  | .stackOverflow _ _ => 2
  | .stackUnderflow _ _ => 3
  | .addressOutOfRange _ _ _ => 4
  | .reservedWrite _ _ _ => 5
  | .keyOutOfRange _ _ _ => 6
  | .oversizedProgram _ => 7

/-! ### The checks of an access (R47, R48, R49) -/

/-- The check of a data read. -/
def readCheck (a : Nat) : Option ErrorCause :=
  if Config.memSize ≤ a then some (.addressOutOfRange a) else none

/-- The check of a data write by an instruction: bounds first, then the reserved area. -/
def writeCheck (a : Nat) : Option ErrorCause :=
  if Config.memSize ≤ a then some (.addressOutOfRange a)
  else if a ≤ Config.reservedHi then some (.reservedWrite a)
  else none

/-- The first failing check among `n` addresses from `base` on, in increasing order (R49, R156). The
addresses are exact integers (R46). -/
def firstFailing (check : Nat → Option ErrorCause) (base n : Nat) : Option ErrorCause :=
  (List.range n).findSome? fun k => check (base + k)

/-- The byte a checked read gives at an address, `MemRead(addr, 1)` (R11, R47). -/
def State.memRead (s : State) (a : Nat) : Except ErrorCause Byte :=
  match readCheck a with
  | some c => .error c
  | none => .ok (Memory.read s.mem a)

/-! ### Registers, stack and timers (spec/10_state.md) -/

/-- `V[x]` (R15). -/
def State.getV (s : State) (x : Reg) : Byte := s.v[x.val]

/-- `V[x] <- b` (R15). -/
def State.setV (s : State) (x : Reg) (b : Byte) : State := { s with v := s.v.set x.val b }

/-- The number of VF, the flag register (R16). -/
def regF : Reg := 15

/-- `V[x] <- result`, then `VF <- flag`, in that order (R108, D14). Log 7: UNVERIFIED. -/
def State.setResultFlag (s : State) (x : Reg) (result flag : Byte) : State :=
  (s.setV x result).setV regF flag

/-- `I <- w` (R19). -/
def State.setI (s : State) (w : Word) : State := { s with i := w }

/-- `PC <- w` (R20). -/
def State.setPc (s : State) (w : Word) : State := { s with pc := w }

/-- `skip()`: `PC <- trunc_16(PC + 2)` on top of the baseline advance (R11). -/
def State.skip (s : State) : State := s.setPc (s.pc + 2)

/-- `skip()` if the condition holds. -/
def State.skipIf (s : State) (c : Bool) : State := if c then s.skip else s

/-- Push a return address: `stack[SP] <- w`, `SP <- SP + 1`; nothing when SP = 16 (R22, R95). -/
def State.push (s : State) (w : Word) : Option State :=
  if h : s.sp.val < 16 then
    some { s with stack := s.stack.set s.sp.val w, sp := ⟨s.sp.val + 1, by omega⟩ }
  else none

/-- Pop: `SP <- SP - 1` and the slot it then names; nothing when SP = 0 (R22, R92). The slot keeps its
value. -/
def State.pop (s : State) : Option (Word × State) :=
  if h : 0 < s.sp.val then
    some (s.stack[s.sp.val - 1], { s with sp := ⟨s.sp.val - 1, by omega⟩ })
  else none

/-- `V[first], V[first + 1], .. <- bytes`: registers loaded in increasing order (R131). -/
def loadRegs (v : Vector Byte 16) (first : Nat) (bytes : List Byte) : Vector Byte 16 :=
  match bytes with
  | [] => v
  | b :: rest => loadRegs (v.setIfInBounds first b) (first + 1) rest

/-- `V[0] .. V[x]` in increasing order (R130). -/
def State.regsUpTo (s : State) (x : Reg) : List Byte := s.v.toList.take (x.val + 1)

/-- The draw `rand8` given to this step (R138): a free value. Log 18: DESIGN CHOICE. -/
def State.draw (s : State) : Byte := Config.rand8 s.drawCount

/-! ### The cycle driver's parts (spec/40_cycle_driver.md) -/

/-- Fetch the word at `[PC, PC+1]`, high byte first (R82, R44). A failing fetch records `pc0` and no
word (R150). -/
def State.fetch (s : State) : Except Fault Word :=
  match s.memRead s.pc.toNat, s.memRead (s.pc.toNat + 1) with
  | .ok hi, .ok lo => .ok (joinBytes hi lo)
  | .ok _, .error _ => .error (.addressOutOfRange s.pc none (s.pc.toNat + 1))
  | .error _, _ => .error (.addressOutOfRange s.pc none s.pc.toNat)

/-- The advance before dispatch: `PC <- trunc_16(pc0 + 2)` (R83). -/
def State.advance (s : State) : State := { s with pc := s.pc + 2 }

/-- A countdown register after one tick: one less, stopping at 0 (R24, R25, R85). -/
def countDown (t : Byte) : Byte := if 0 < t.toNat then t - 1 else t

/-- The timer tick (R85). -/
def State.tick (s : State) : State := { s with dt := countDown s.dt, st := countDown s.st }

/-- The model's own: the next step gets the next draw (R138). Log 18: DESIGN CHOICE. -/
def State.nextDraw (s : State) : State := { s with drawCount := s.drawCount + 1 }

/-- What the driver does after a handler: the tick when it returned normally, nothing after an error
(R85, R86, R150). -/
def finishStep (o : Host.Outcome State Fault Refusal) : Host.Outcome State Fault Refusal :=
  match o with
  | .next s => .next s.tick.nextDraw
  | .fault e => .fault e
  | .refused r => .refused r

/-- The handler of an unassigned subcode writes nothing (R72, R87). Log 12: UNVERIFIED. -/
def execUnassigned (s : State) : Host.Outcome State Fault Refusal := .next s

end Sys2Proof.Machine
end

