-- ==== Sys2Proof/Machine/Operands.lean ====
section
/-! DEFINITION. How the instructions form their operands: addresses, the shifted register, the glyph
address, decimal digits, keys, and a sprite's pixels. -/

namespace Sys2Proof.Machine

/-- `zext_16(nnn)` (spec/30_encoding.md R62). -/
def addrOf (nnn : Addr12) : Word := nnn.setWidth 16

/-- The value 8XY6 and 8XYE shift: `b if SHIFT_USES_VY else a` (spec/42_alu.md R115, R117). Log 3: UNVERIFIED. -/
def shiftSource (usesVy : Bool) (a b : Byte) : Byte := if usesVy then b else a

/-- `zext_16(5 * (V[x] & 0xF))`, the address of a glyph (spec/43_index_memory.md R128). -/
def glyphAddr (b : Byte) : Word := BitVec.ofNat 16 (5 * (b.toNat % 16))

/-- Hundreds, tens, units (spec/43_index_memory.md R129). -/
def bcdDigits (b : Byte) : List Byte :=
  [BitVec.ofNat 8 (b.toNat / 100), BitVec.ofNat 8 (b.toNat / 10 % 10), BitVec.ofNat 8 (b.toNat % 10)]

/-- `trunc_16(I + x + 1)`, the index after a block transfer (spec/43_index_memory.md R130, R131). -/
def indexAfterTransfer (i : Word) (x : Reg) : Word := BitVec.ofNat 16 (i.toNat + x.val + 1)

/-! ### Keys (spec/45_random_timers_keys.md) -/

/-- `key[k]`; there is no key from 16 on (R28). -/
def State.keyDown (s : State) (k : Nat) : Bool := (s.key[k]?).getD false

/-- The smallest pressed key, if any is pressed (R143, D19). Log 13: UNVERIFIED. -/
def State.firstKey (s : State) : Option Nat := (List.range Config.numKeys).find? s.keyDown

/-! ### Sprites (spec/44_display.md R135, R136) -/

/-- `fb[px, py]` for coordinates on the grid; no pixel elsewhere. -/
def pixel (fb : Framebuffer) (px py : Nat) : Option Bool := (fb[py]?).bind (·[px]?)

/-- `DRAW_OOB = clip`: only pixels of the 64×32 grid are drawn (R136, D16). Log 4: UNVERIFIED. -/
abbrev pixelOnGrid (px py : Nat) : Prop := px < 64 ∧ py < 32

/-- Column `c` (0..7) of a sprite row: bit `7 - c` of its byte (R135, D17). Log 5: UNVERIFIED. -/
def spriteBit (row : Byte) (c : Nat) : Bool := row.getLsbD (7 - c)

/-- XOR a 1 into the pixel, and note whether it was 1 (R136). Nothing for a pixel off the grid. -/
def drawPixel (px py : Nat) (acc : Framebuffer × Bool) : Framebuffer × Bool :=
  if h : pixelOnGrid px py then
    let old := acc.1[py][px]
    (acc.1.set py (acc.1[py].set px (!old)), acc.2 || old)
  else acc

/-- One row of a sprite at screen row `py`, columns 0..7 in order (R136). -/
def drawRow (x0 py : Nat) (row : Byte) (acc : Framebuffer × Bool) : Framebuffer × Bool :=
  (List.range 8).foldl
    (fun acc c => if spriteBit row c then drawPixel (x0 + c) py acc else acc) acc

/-- The rows of a sprite, from screen row `py` down (R136). -/
def drawRows (x0 py : Nat) (rows : List Byte) (acc : Framebuffer × Bool) : Framebuffer × Bool :=
  match rows with
  | [] => acc
  | row :: rest => drawRows x0 (py + 1) rest (drawRow x0 py row acc)

end Sys2Proof.Machine
end

