-- ==== Sys2Proof/Machine/Alu.lean ====
section
/-! DEFINITION. Immediate loads and register arithmetic (spec/42_alu.md R106..R118). Result and flag are
computed from the operand values read at the start (R108). -/

namespace Sys2Proof.Machine

/-- LD VX, KK (R106). -/
def execLdVxKk (x : Reg) (kk : Byte) (s : State) : Host.Outcome State Fault Refusal :=
  .next (s.setV x kk)

/-- ADD VX, KK: no flag (R107). -/
def execAddVxKk (x : Reg) (kk : Byte) (s : State) : Host.Outcome State Fault Refusal :=
  .next (s.setV x (addResult (s.getV x) kk))

/-- LD VX, VY (R109). -/
def execLdVxVy (x y : Reg) (s : State) : Host.Outcome State Fault Refusal :=
  .next (s.setV x (s.getV y))

/-- OR VX, VY: no flag (R110). -/
def execOrVxVy (x y : Reg) (s : State) : Host.Outcome State Fault Refusal :=
  .next (s.setV x (s.getV x ||| s.getV y))

/-- AND VX, VY: no flag (R111). -/
def execAndVxVy (x y : Reg) (s : State) : Host.Outcome State Fault Refusal :=
  .next (s.setV x (s.getV x &&& s.getV y))

/-- XOR VX, VY: no flag (R112). -/
def execXorVxVy (x y : Reg) (s : State) : Host.Outcome State Fault Refusal :=
  .next (s.setV x (s.getV x ^^^ s.getV y))

/-- ADD VX, VY: VF is the carry (R113). -/
def execAddVxVy (x y : Reg) (s : State) : Host.Outcome State Fault Refusal :=
  .next (s.setResultFlag x (addResult (s.getV x) (s.getV y)) (addFlag (s.getV x) (s.getV y)))

/-- SUB VX, VY: V[x] is the minuend, VF is "no borrow" (R114, GK7). Log 6: UNVERIFIED. -/
def execSubVxVy (x y : Reg) (s : State) : Host.Outcome State Fault Refusal :=
  .next (s.setResultFlag x (subResult (s.getV x) (s.getV y)) (subFlag (s.getV x) (s.getV y)))

/-- SHR VX, VY: VF is the bit shifted out (R115). Log 3: UNVERIFIED. -/
def execShrVxVy (x y : Reg) (s : State) : Host.Outcome State Fault Refusal :=
  .next (s.setResultFlag x (shrResult (shiftSource shiftUsesVy (s.getV x) (s.getV y)))
    (shrFlag (shiftSource shiftUsesVy (s.getV x) (s.getV y))))

/-- SUBN VX, VY: V[y] is the minuend, VF is "no borrow" (R116). -/
def execSubnVxVy (x y : Reg) (s : State) : Host.Outcome State Fault Refusal :=
  .next (s.setResultFlag x (subResult (s.getV y) (s.getV x)) (subFlag (s.getV y) (s.getV x)))

/-- SHL VX, VY: VF is the bit shifted out (R117). Log 3: UNVERIFIED. -/
def execShlVxVy (x y : Reg) (s : State) : Host.Outcome State Fault Refusal :=
  .next (s.setResultFlag x (shlResult (shiftSource shiftUsesVy (s.getV x) (s.getV y)))
    (shlFlag (shiftSource shiftUsesVy (s.getV x) (s.getV y))))

end Sys2Proof.Machine
end

