-- ==== Sys2Proof/Machine/ControlFlow.lean ====
section
/-! DEFINITION. Control flow (spec/41_control_flow.md R91..R100). Each meaning runs after the baseline
advance: PC is the instruction's address plus 2 (R83). -/

namespace Sys2Proof.Machine

/-- SYS NNN: the handler writes nothing (R91, D10). Log 11: UNVERIFIED. -/
def execSysNnn (_nnn : Addr12) (s : State) : Host.Outcome State Fault Refusal := .next s

/-- RET (R92). -/
def execRet (s : State) : Host.Outcome State Fault Refusal :=
  match s.pop with
  | none => raise .stackUnderflow .ret s
  | some (w, t) => .next (t.setPc w)

/-- JP NNN (R93). -/
def execJpNnn (nnn : Addr12) (s : State) : Host.Outcome State Fault Refusal :=
  .next (s.setPc (addrOf nnn))

/-- JP V0, NNN: the sum is not masked to 12 bits (R94, D7). Log 9: UNVERIFIED. -/
def execJpV0Nnn (nnn : Addr12) (s : State) : Host.Outcome State Fault Refusal :=
  .next (s.setPc (addrOf nnn + (s.getV 0).setWidth 16))

/-- CALL NNN: pushes PC, which is the address after the CALL (R95). -/
def execCallNnn (nnn : Addr12) (s : State) : Host.Outcome State Fault Refusal :=
  match s.push s.pc with
  | none => raise .stackOverflow (.callNnn nnn) s
  | some t => .next (t.setPc (addrOf nnn))

/-- SE VX, KK (R96). -/
def execSeVxKk (x : Reg) (kk : Byte) (s : State) : Host.Outcome State Fault Refusal :=
  .next (s.skipIf (s.getV x == kk))

/-- SNE VX, KK (R97). -/
def execSneVxKk (x : Reg) (kk : Byte) (s : State) : Host.Outcome State Fault Refusal :=
  .next (s.skipIf (s.getV x != kk))

/-- SE VX, VY; the low nibble is ignored (R98, R69). Log 11: UNVERIFIED. -/
def execSeVxVy (x y : Reg) (_n : Nibble) (s : State) : Host.Outcome State Fault Refusal :=
  .next (s.skipIf (s.getV x == s.getV y))

/-- SNE VX, VY; the low nibble is ignored (R99, R69). Log 11: UNVERIFIED. -/
def execSneVxVy (x y : Reg) (_n : Nibble) (s : State) : Host.Outcome State Fault Refusal :=
  .next (s.skipIf (s.getV x != s.getV y))

end Sys2Proof.Machine
end

