-- ==== Sys2Proof/Machine/Display.lean ====
section
/-! DEFINITION. Display (spec/44_display.md R134..R137). -/

namespace Sys2Proof.Machine

/-- CLS: every pixel 0, dirty set (R134). -/
def execCls (s : State) : Host.Outcome State Fault Refusal :=
  .next { s with fb := clearFramebuffer, dirty := true }

/-- DRW VX, VY, N: the coordinates and I are read, and every row's address checked, before VF is
written; VF is 1 iff a pixel went from 1 to 0 (R136, D24, D27). Logs 4, 5, 8, 16: UNVERIFIED. -/
def execDrwVxVyN (x y : Reg) (n : Nibble) (s : State) : Host.Outcome State Fault Refusal :=
  match firstFailing readCheck s.i.toNat n.toNat with
  | some c => raise c (.drwVxVyN x y n) s
  | none =>
    let drawn := drawRows (s.getV x).toNat (s.getV y).toNat
      (Memory.readBytes s.mem s.i.toNat n.toNat) (s.fb, false)
    .next { s.setV regF (flagByte drawn.2) with fb := drawn.1, dirty := true }

end Sys2Proof.Machine
end

