-- ==== Sys2Proof/Machine/IndexMemory.lean ====
section
/-! DEFINITION. Index register and memory transfer (spec/43_index_memory.md R126..R132). The multi-byte
meanings check every address before any byte moves (D24, log 16). -/

namespace Sys2Proof.Machine

/-- LD I, NNN (R126). -/
def execLdINnn (nnn : Addr12) (s : State) : Host.Outcome State Fault Refusal :=
  .next (s.setI (addrOf nnn))

/-- ADD I, VX: modulo 2^16, no flag (R127, D8). Log 10: UNVERIFIED. -/
def execAddIVx (x : Reg) (s : State) : Host.Outcome State Fault Refusal :=
  .next (s.setI (s.i + (s.getV x).setWidth 16))

/-- LD F, VX (R128). -/
def execLdFVx (x : Reg) (s : State) : Host.Outcome State Fault Refusal :=
  .next (s.setI (glyphAddr (s.getV x)))

/-- LD B, VX (R129). -/
def execLdBVx (x : Reg) (s : State) : Host.Outcome State Fault Refusal :=
  match firstFailing writeCheck s.i.toNat 3 with
  | some c => raise c (.ldBVx x) s
  | none => .next { s with mem := Memory.writeBytes s.mem s.i.toNat (bcdDigits (s.getV x)) }

/-- LD [I], VX: stores V[0]..V[x], then advances I by x + 1 (R130). -/
def execLdMemVx (x : Reg) (s : State) : Host.Outcome State Fault Refusal :=
  match firstFailing writeCheck s.i.toNat (x.val + 1) with
  | some c => raise c (.ldMemVx x) s
  | none =>
    .next { s with
      mem := Memory.writeBytes s.mem s.i.toNat (s.regsUpTo x)
      i := indexAfterTransfer s.i x }

/-- LD VX, [I]: loads V[0]..V[x], then advances I by x + 1 (R131). -/
def execLdVxMem (x : Reg) (s : State) : Host.Outcome State Fault Refusal :=
  match firstFailing readCheck s.i.toNat (x.val + 1) with
  | some c => raise c (.ldVxMem x) s
  | none =>
    .next { s with
      v := loadRegs s.v 0 (Memory.readBytes s.mem s.i.toNat (x.val + 1))
      i := indexAfterTransfer s.i x }

end Sys2Proof.Machine
end

