-- ==== Sys2Proof/Machine/RandomTimersKeys.lean ====
section
/-! DEFINITION. Random, timers and keypad (spec/45_random_timers_keys.md R138..R146). -/

namespace Sys2Proof.Machine

/-- RND VX, KK: the step's draw AND kk (R139). Log 18: DESIGN CHOICE. -/
def execRndVxKk (x : Reg) (kk : Byte) (s : State) : Host.Outcome State Fault Refusal :=
  .next (s.setV x (s.draw &&& kk))

/-- LD VX, DT: DT before this step's tick (R140). -/
def execLdVxDt (x : Reg) (s : State) : Host.Outcome State Fault Refusal :=
  .next (s.setV x s.dt)

/-- LD DT, VX; the tick of the same step follows (R141). -/
def execLdDtVx (x : Reg) (s : State) : Host.Outcome State Fault Refusal :=
  .next { s with dt := s.getV x }

/-- LD ST, VX; the tick of the same step follows (R142). -/
def execLdStVx (x : Reg) (s : State) : Host.Outcome State Fault Refusal :=
  .next { s with st := s.getV x }

/-- LD VX, K: the smallest pressed key, or back to this instruction (R143, D19). Log 13: UNVERIFIED. -/
def execLdVxK (x : Reg) (s : State) : Host.Outcome State Fault Refusal :=
  match s.firstKey with
  | some k => .next (s.setV x (BitVec.ofNat 8 k))
  | none => .next (s.setPc (s.pc - 2))

/-- SKP VX (R144, D20). Log 14: UNVERIFIED. -/
def execSkpVx (x : Reg) (s : State) : Host.Outcome State Fault Refusal :=
  if 15 < (s.getV x).toNat then raise (.keyOutOfRange (s.getV x)) (.skpVx x) s
  else .next (s.skipIf (s.keyDown (s.getV x).toNat))

/-- SKNP VX (R145, D20). Log 14: UNVERIFIED. -/
def execSknpVx (x : Reg) (s : State) : Host.Outcome State Fault Refusal :=
  if 15 < (s.getV x).toNat then raise (.keyOutOfRange (s.getV x)) (.sknpVx x) s
  else .next (s.skipIf (!s.keyDown (s.getV x).toNat))

end Sys2Proof.Machine
end

