-- ==== Sys2Proof/Machine/Step.lean ====
section
/-! DEFINITION. One step of the cycle driver (spec/40_cycle_driver.md R81..R90). It only calls the parts
of Machine/Ops.lean, the decoder and `exec`. -/

namespace Sys2Proof.Machine

/-- The handler chosen by the word (R84): an instruction's meaning, or the no-op of an unassigned
subcode (R72). -/
def dispatchWord (w : Word) (s : State) : Host.Outcome State Fault Refusal :=
  match decodeWord w with
  | .instr i => exec i s
  | .unassigned _ => execUnassigned s

/-- `step()`: fetch, advance, dispatch, tick (R86). It is permitted only when the status is Ready (R81). -/
def step (s : State) : Host.Outcome State Fault Refusal :=
  match s.status with
  | .ready =>
    match s.fetch with
    | .error e => .fault e
    | .ok w => finishStep (dispatchWord w s.advance)
  | .failed e => .refused (.stepNotPermitted (.failed e))
  | .unloadable => .refused (.stepNotPermitted .unloadable)

/-- The state with a word stored at `[PC, PC+1]`, high byte first, where the next step fetches it. It
stands for a load of a program from outside the machine (log 22). -/
def State.withFetchWord (s : State) (nbits w : Nat) : State :=
  { s with mem := Memory.storeWord s.mem s.pc.toNat (tableWord nbits w) }

end Sys2Proof.Machine
end

