-- ==== Sys2Proof/Machine/HostInterface.lean ====
section
/-! DEFINITION. What the host can do to the machine and read from it (spec/60_exceptions.md R162,
spec/70_reset_and_hazards.md R171, R172). The host acts only between steps (R178), so each interaction is
one function of the state. -/

/-- FREE VALUE. The rest of the state after a step that ended in the given error, from the given state
("The values of the rest of the state after an error are unspecified", R150, U6). Log 17: UNVERIFIED. -/
opaque Sys2Proof.Config.stateAfterError : Sys2Proof.Machine.Fault → Sys2Proof.Machine.State → Sys2Proof.Machine.State

namespace Sys2Proof.Machine

/-- `initialize()`: every piece of state at its reset value (R171). The generator of the draws is no part
of the core (R34, D21), so the draws go on where they were. Log 18: DESIGN CHOICE. -/
def initializeMachine (s : State) : State := { State.reset with drawCount := s.drawCount }

/-- What `loadProgram` answers (R172). -/
inductive LoadResult where
  | ok
  | error (e : Fault)
deriving DecidableEq, Repr

/-- `loadProgram(bytes)` (R172). A program too long leaves memory unspecified (a free value, in canonical
form) and the status Unloadable. Log 21: UNVERIFIED. -/
def loadProgram (bytes : List Byte) (s : State) : LoadResult × State :=
  if Config.maxProgram < bytes.length then
    (.error (.oversizedProgram bytes.length),
      { s with
        mem := Memory.ofBytes (Config.byteAfterFailedLoad bytes s.mem)
        status := .unloadable })
  else (.ok, { s with mem := Memory.writeBytes s.mem Config.programBase bytes })

/-- What the host's call of `step()` gives back (R86, R162). `notPermitted` is the model's name for a call
that the host must not make (R81, U13). -/
inductive StepResult where
  | completed
  | error (e : Fault)
  | notPermitted
deriving DecidableEq, Repr

/-- The state after a step that ended in an error: the status is Failed(e), the rest is unspecified
(R86, R150). The draw of the step was given. Log 17: UNVERIFIED. -/
def failedState (e : Fault) (s : State) : State :=
  { Config.stateAfterError e s with status := .failed e, drawCount := s.drawCount + 1 }

/-- The host's call of `step()` (R86, R162). -/
def hostStep (s : State) : StepResult × State :=
  match step s with
  | .next t => (.completed, t)
  | .fault e => (.error e, failedState e s)
  | .refused _ => (.notPermitted, s)

/-- Write keypad: 16 booleans (R162). -/
def writeKeypad (keys : Vector Bool 16) (s : State) : State := { s with key := keys }

/-- Clear dirty flag: `dirty <- 0` (R162, R27). -/
def clearDirty (s : State) : State := { s with dirty := false }

/-- Read framebuffer: a read-only view (R162). -/
def readFramebuffer (s : State) : Framebuffer := s.fb

/-- Read dirty flag (R162). -/
def readDirty (s : State) : Bool := s.dirty

/-- Read timers: DT and ST (R162). -/
def readTimers (s : State) : Byte × Byte := (s.dt, s.st)

/-- The interactions of R162 that can change the state. -/
inductive HostCall where
  | initializeMachine
  | loadProgram (bytes : List Byte)
  | step
  | clearDirty
  | writeKeypad (keys : Vector Bool 16)
deriving DecidableEq, Repr

/-- The state after one interaction. -/
def HostCall.run (c : HostCall) (s : State) : State :=
  match c with
  | .initializeMachine => Machine.initializeMachine s
  | .loadProgram bytes => (Machine.loadProgram bytes s).2
  | .step => (hostStep s).2
  | .clearDirty => Machine.clearDirty s
  | .writeKeypad keys => Machine.writeKeypad keys s

/-- The state after a sequence of interactions, the first first. -/
def runCalls (calls : List HostCall) (s : State) : State := calls.foldl (fun t c => c.run t) s

end Sys2Proof.Machine
end

