-- ==== Sys2Proof/Safety.lean ====
section
/-! DEFINITION. The terms claims are written in: what counts as a good state, what a handler may change,
when an instruction completes, and which pixels a sprite covers. They are read from the spec's rules, not
from the meanings. -/

namespace Sys2Proof.Machine

/-! ### Good states -/

/-- The invariant every step keeps: memory is in its canonical form, and the reserved area 0x000..0x1FF
still holds what `initialize()` put there ("must never be overwritten by program logic other than
initialization", spec/20_memory.md R42). -/
structure MemoryInv (s : State) : Prop where
  memWf : Memory.wf s.mem = true
  reserved : ∀ a, a ≤ Config.reservedHi → s.readByte a = resetByte a

/-! ### Frames -/

/-- The parts of the state a handler can change, memory apart. `stack` is the stack and SP together. -/
inductive Piece where
  | v (x : Reg)
  | i
  | pc
  | stack
  | dt
  | st
  | fb
  | dirty
deriving DecidableEq, Repr

/-- From `s` to `t`, only the listed parts and the listed addresses of memory may differ. No handler
changes the keypad (spec/10_state.md R28), the status or the draw's number. -/
structure Frame (may : List Piece) (stored : List Nat) (s t : State) : Prop where
  v : ∀ x, Piece.v x ∉ may → t.getV x = s.getV x
  i : Piece.i ∉ may → t.i = s.i
  pc : Piece.pc ∉ may → t.pc = s.pc
  stack : Piece.stack ∉ may → t.stack = s.stack ∧ t.sp = s.sp
  dt : Piece.dt ∉ may → t.dt = s.dt
  st : Piece.st ∉ may → t.st = s.st
  fb : Piece.fb ∉ may → t.fb = s.fb
  dirty : Piece.dirty ∉ may → t.dirty = s.dirty
  mem : ∀ a, a ∉ stored → t.readByte a = s.readByte a
  key : t.key = s.key
  status : t.status = s.status
  drawCount : t.drawCount = s.drawCount

/-- V[0]..V[x]. -/
def regsThrough (x : Reg) : List Piece :=
  (List.finRange 16).filterMap fun r => if r ≤ x then some (.v r) else none

/-- What the handler of an instruction may change besides memory: its destination and what its rule says
it also updates. -/
def mayChange : Sys2Proof.Instr → List Piece
  | .sysNnn _ => []
  | .cls => [.fb, .dirty]
  | .ret | .callNnn _ => [.pc, .stack]
  | .jpNnn _ | .jpV0Nnn _ => [.pc]
  | .seVxKk _ _ | .sneVxKk _ _ | .seVxVy _ _ _ | .sneVxVy _ _ _ => [.pc]
  | .ldVxKk x _ | .addVxKk x _ | .rndVxKk x _ => [.v x]
  | .ldVxVy x _ | .orVxVy x _ | .andVxVy x _ | .xorVxVy x _ => [.v x]
  | .addVxVy x _ | .subVxVy x _ | .shrVxVy x _ | .subnVxVy x _ | .shlVxVy x _ => [.v x, .v regF]
  | .ldINnn _ | .addIVx _ | .ldFVx _ => [.i]
  | .drwVxVyN _ _ _ => [.v regF, .fb, .dirty]
  | .skpVx _ | .sknpVx _ => [.pc]
  | .ldVxDt x => [.v x]
  | .ldVxK x => [.v x, .pc]
  | .ldDtVx _ => [.dt]
  | .ldStVx _ => [.st]
  | .ldBVx _ => []
  | .ldMemVx _ => [.i]
  | .ldVxMem x => .i :: regsThrough x

/-- The addresses an instruction stores to: I, I + 1, I + 2 for LD B (spec/43_index_memory.md R129),
I .. I + x for LD [I] (R130), none for every other (spec/20_memory.md R41, R45). -/
def storedAddrs (i : Sys2Proof.Instr) (s : State) : List Nat :=
  match i with
  | .ldBVx _ => (List.range 3).map (s.i.toNat + ·)
  | .ldMemVx x => (List.range (x.val + 1)).map (s.i.toNat + ·)
  | .sysNnn _ | .cls | .ret | .jpNnn _ | .callNnn _ | .seVxKk _ _ | .sneVxKk _ _ | .seVxVy _ _ _
  | .ldVxKk _ _ | .addVxKk _ _ | .ldVxVy _ _ | .orVxVy _ _ | .andVxVy _ _ | .xorVxVy _ _
  | .addVxVy _ _ | .subVxVy _ _ | .shrVxVy _ _ | .subnVxVy _ _ | .shlVxVy _ _ | .sneVxVy _ _ _
  | .ldINnn _ | .jpV0Nnn _ | .rndVxKk _ _ | .drwVxVyN _ _ _ | .skpVx _ | .sknpVx _ | .ldVxDt _
  | .ldVxK _ | .ldDtVx _ | .ldStVx _ | .addIVx _ | .ldFVx _ | .ldVxMem _ => []

/-! ### When an instruction completes -/

/-- The handler raises no error: the stack has room or an entry (R92, R95), every address is in memory and,
for a write, above the reserved area (R129, R130, R131, R136), the register names a key (R144, R145). -/
def Completes (i : Sys2Proof.Instr) (s : State) : Prop :=
  match i with
  | .ret => 0 < s.sp.val
  | .callNnn _ => s.sp.val < 16
  | .drwVxVyN _ _ n => ∀ r, r < n.toNat → s.i.toNat + r < 4096
  | .ldBVx _ => 0x1FF < s.i.toNat ∧ s.i.toNat + 2 < 4096
  | .ldMemVx x => 0x1FF < s.i.toNat ∧ s.i.toNat + x.val < 4096
  | .ldVxMem x => s.i.toNat + x.val < 4096
  | .skpVx x | .sknpVx x => (s.getV x).toNat ≤ 15
  | .sysNnn _ | .cls | .jpNnn _ | .seVxKk _ _ | .sneVxKk _ _ | .seVxVy _ _ _
  | .ldVxKk _ _ | .addVxKk _ _ | .ldVxVy _ _ | .orVxVy _ _ | .andVxVy _ _ | .xorVxVy _ _
  | .addVxVy _ _ | .subVxVy _ _ | .shrVxVy _ _ | .subnVxVy _ _ | .shlVxVy _ _ | .sneVxVy _ _ _
  | .ldINnn _ | .jpV0Nnn _ | .rndVxKk _ _ | .ldVxDt _ | .ldVxK _ | .ldDtVx _ | .ldStVx _
  | .addIVx _ | .ldFVx _ => True

/-! ### Sprites -/

/-- The sprite of `n` rows at `mem[I]`, drawn at column `V[x]` and row `V[y]`, has a 1 bit at screen
column `px`, screen row `py` (spec/44_display.md R135). -/
def spriteCovers (s : State) (x y : Reg) (n : Nibble) (px py : Nat) : Prop :=
  (s.getV x).toNat ≤ px ∧ px < (s.getV x).toNat + 8 ∧
  (s.getV y).toNat ≤ py ∧ py < (s.getV y).toNat + n.toNat ∧
  (s.readByte (s.i.toNat + (py - (s.getV y).toNat))).getLsbD (7 - (px - (s.getV x).toNat)) = true

/-! ### The stack's stale slots -/

/-- `t` is `s` but for slots of the stack at index SP and above (spec/10_state.md R23). -/
structure AgreeUpToStale (s t : State) : Prop where
  slots : ∀ k, (h : k < 16) → k < s.sp.val → t.stack[k] = s.stack[k]
  rest : t = { s with stack := t.stack }

/-- Two outcomes that no program can tell apart but for stale slots. -/
def OutcomesAgree (o p : Host.Outcome State Fault Refusal) : Prop :=
  match o, p with
  | .next s, .next t => AgreeUpToStale s t
  | .fault e, .fault f => e = f
  | .refused r, .refused q => r = q
  | .next _, .fault _ | .next _, .refused _ | .fault _, .next _ | .fault _, .refused _
  | .refused _, .next _ | .refused _, .fault _ => False

end Sys2Proof.Machine
end

