-- ==== Sys2Proof/Certificates/Slice0/Obligations.lean ====
section
/-! DEFINITION. The statements for the provers. `Frame may stored s t` says that from `s` to `t` nothing
changes but the parts in `may` and the bytes at the addresses in `stored` (Sys2Proof/Safety.lean); a
handler runs after the baseline advance, so its own address is `s.pc - 2` (spec/40_cycle_driver.md R83).
A docstring that names a decision D<n> says that the statement rests on the spec's own decision. -/

open Sys2Proof Sys2Proof.Machine

/-! ### Reset, memory and the machine's invariant -/

/-- R32: every piece of state after `initialize()`; the font's bytes are the parameter `FONT` (log 2). -/
def Obligations.ResetStateOfTheSpec : Prop :=
  (∀ a, a < 80 → State.reset.readByte a = (font[a]?).getD 0) ∧
  (∀ a, 80 ≤ a → a < 4096 → State.reset.readByte a = 0) ∧
  (∀ x, State.reset.getV x = 0) ∧ State.reset.i = 0 ∧ State.reset.pc = 0x200 ∧
  State.reset.sp.val = 0 ∧ (∀ k, (h : k < 16) → State.reset.stack[k] = 0) ∧
  State.reset.dt = 0 ∧ State.reset.st = 0 ∧
  (∀ px py, px < 64 → py < 32 → pixel State.reset.fb px py = some false) ∧
  State.reset.dirty = false ∧ (∀ k, k < 16 → State.reset.keyDown k = false) ∧
  State.reset.status = .ready

/-- The invariant holds at reset. -/
def Obligations.ResetSatisfiesInvariant : Prop := MemoryInv State.reset

/-- R42, R48 (D3): every completed step keeps memory canonical and the reserved area as `initialize()`
left it, from every state that has the invariant. -/
def Obligations.StepKeepsMemoryInvariant : Prop :=
  ∀ s t, MemoryInv s → step s = .next t → MemoryInv t

/-- R162, R171, R172 (D3, D22, D23): every one of the host's calls, from every state, keeps "a machine
that is Ready has the invariant"; hence, reset having it, so does a machine that is Ready after any calls,
in any order, with any programs and keys. The contents after a failed load and the state after an error
are free values (logs 17 and 21); the statement holds for each. -/
def Obligations.HostCallsKeepInvariantWhileReady : Prop :=
  (∀ (c : HostCall) s, (s.status = .ready → MemoryInv s) →
    (c.run s).status = .ready → MemoryInv (c.run s)) ∧
  (∀ calls, (runCalls calls State.reset).status = .ready → MemoryInv (runCalls calls State.reset))

/-! ### Encoding -/

/-- R61: the seven fields of a word, as numbers. -/
def Obligations.WordFieldsAreBitRanges : Prop :=
  ∀ w : Word,
    (fieldOp w).toNat = w.toNat / 4096 ∧ (fieldX w).val = w.toNat / 256 % 16 ∧
    (fieldY w).val = w.toNat / 16 % 16 ∧ (fieldN w).toNat = w.toNat % 16 ∧
    (fieldKk w).toNat = w.toNat % 256 ∧ (fieldNnn w).toNat = w.toNat % 4096 ∧
    (fieldHi w).toNat = w.toNat / 256

/-- R71: decoding an encoded well-formed instruction gives it back, with every operand at every value. -/
def Obligations.DecodeOfEncodeIsIdentity : Prop :=
  ∀ i : Instr, i.wellFormed = true →
    decodeWord (encode i) = .instr i ∧ ∀ rest, decodeBytes (encodeBytes i ++ rest) = .ok (.instr i, rest)

/-- R71: a word that decodes to an instruction is that instruction's encoding, and the instruction is
well formed: no two words share an instruction. -/
def Obligations.EncodeOfDecodeIsIdentity : Prop :=
  ∀ w i, decodeWord w = .instr i → encode i = w ∧ i.wellFormed = true

/-- R71: a word decodes to an instruction of row k of the opcode map exactly when it lies in row k, so
the rows do not overlap. The patterns are general knowledge (GK1, log 1). -/
def Obligations.DecodeFollowsOpcodeMap : Prop :=
  ∀ w, ∀ r ∈ opcodeMap, r.holds w = true ↔ ∃ i, decodeWord w = .instr i ∧ i.tableRow = r.number

/-- R72: the words that are no instruction are exactly the unassigned subcodes of families 8, E and F. -/
def Obligations.UnassignedSubcodesExactly : Prop :=
  ∀ w, decodeWord w = .unassigned w ↔
    (w.toNat / 4096 = 8 ∧ (w.toNat % 16) ∈ [0x8, 0x9, 0xA, 0xB, 0xC, 0xD, 0xF]) ∨
    (w.toNat / 4096 = 0xE ∧ (w.toNat % 256) ∉ [0x9E, 0xA1]) ∨
    (w.toNat / 4096 = 0xF ∧
      (w.toNat % 256) ∉ [0x07, 0x0A, 0x15, 0x18, 0x1E, 0x29, 0x33, 0x55, 0x65])

/-- One word of each of the sixteen families, written out from R71, those of R77 among them. -/
def Obligations.SampleWordsDecode : Prop :=
  decodeWord 0x6A02 = .instr (.ldVxKk 0xA 0x02) ∧ decodeWord 0x7A05 = .instr (.addVxKk 0xA 0x05) ∧
  decodeWord 0xD125 = .instr (.drwVxVyN 1 2 5) ∧ decodeWord 0xF355 = .instr (.ldMemVx 3) ∧
  decodeWord 0xA2F0 = .instr (.ldINnn 0x2F0) ∧ decodeWord 0x8AB4 = .instr (.addVxVy 0xA 0xB) ∧
  decodeWord 0x00EE = .instr .ret ∧ decodeWord 0x2300 = .instr (.callNnn 0x300) ∧
  decodeWord 0xE1A1 = .instr (.sknpVx 1) ∧ decodeWord 0x0000 = .instr (.sysNnn 0) ∧
  decodeWord 0x1234 = .instr (.jpNnn 0x234) ∧ decodeWord 0x3342 = .instr (.seVxKk 3 0x42) ∧
  decodeWord 0x4375 = .instr (.sneVxKk 3 0x75) ∧ decodeWord 0x5120 = .instr (.seVxVy 1 2 0) ∧
  decodeWord 0x9340 = .instr (.sneVxVy 3 4 0) ∧ decodeWord 0xB5F0 = .instr (.jpV0Nnn 0x5F0) ∧
  decodeWord 0xC30F = .instr (.rndVxKk 3 0x0F)

/-! ### The cycle driver -/

/-- R44, R82: the fetch reads the word at `[PC, PC+1]`, high byte first, for any PC, odd or even; where
an address is 4096 or more the step ends with AddressOutOfRange at the first such address
(what the error records besides is ErrorRecordsAddressAndWord). -/
def Obligations.FetchReadsBigEndianOrFails : Prop :=
  ∀ s : State,
    (s.pc.toNat + 1 < 4096 → ∃ w, s.fetch = .ok w ∧
      w.toNat = (s.readByte s.pc.toNat).toNat * 256 + (s.readByte (s.pc.toNat + 1)).toNat) ∧
    (s.status = .ready → 4096 ≤ s.pc.toNat →
      ∃ pc0 w, step s = .fault (.addressOutOfRange pc0 w s.pc.toNat)) ∧
    (s.status = .ready → s.pc.toNat < 4096 → 4096 ≤ s.pc.toNat + 1 →
      ∃ pc0 w, step s = .fault (.addressOutOfRange pc0 w (s.pc.toNat + 1)))

/-- R86: when the bytes at PC decode to an instruction, the step is its handler on the state with PC
advanced by 2, then the tick of both timers (and the next draw's number, log 18); an error of the handler
is the step's. -/
def Obligations.StepRunsDecodedInstruction : Prop :=
  ∀ (s : State) (i : Instr), s.status = .ready → s.pc.toNat + 1 < 4096 →
    decodeBytes [s.readByte s.pc.toNat, s.readByte (s.pc.toNat + 1)] = .ok (.instr i, []) →
    (∀ t, exec i { s with pc := s.pc + 2 } = .next t →
      step s = .next { t with
        dt := BitVec.ofNat 8 (t.dt.toNat - 1)
        st := BitVec.ofNat 8 (t.st.toNat - 1)
        drawCount := t.drawCount + 1 }) ∧
    (∀ e, exec i { s with pc := s.pc + 2 } = .fault e → step s = .fault e)

/-- R72, R87 (D13): an unassigned subcode only advances PC by 2 and ticks the timers. -/
def Obligations.UnassignedSubcodeOnlyAdvances : Prop :=
  ∀ (s : State) (w : Word), s.status = .ready → s.fetch = .ok w → decodeWord w = .unassigned w →
    ∃ t, step s = .next t ∧ t.pc = s.pc + 2 ∧ t.dt.toNat = s.dt.toNat - 1 ∧
      t.st.toNat = s.st.toNat - 1 ∧
      Frame [.pc, .dt, .st] [] s { t with drawCount := s.drawCount }

/-- R81, R31: no step from a machine that is not Ready. The spec puts such a call outside itself (U13); that
it is refused by name is the model's choice (log 17). -/
def Obligations.NoStepUnlessReady : Prop :=
  ∀ s : State, s.status ≠ .ready → step s = .refused (.stepNotPermitted s.status)

/-- R85 (D6), R90: a completed step ticks both timers once, after the handler: DT and ST are one less
than the handler left them, and never below 0; the handler leaves them as they were but for LD DT and
LD ST. -/
def Obligations.TimersTickOnceAStep : Prop :=
  ∀ (s t : State) (w : Word), step s = .next t → s.fetch = .ok w →
    ((∀ x, decodeWord w ≠ .instr (.ldDtVx x)) → t.dt.toNat = s.dt.toNat - 1) ∧
    (∀ x, decodeWord w = .instr (.ldDtVx x) → t.dt.toNat = (s.getV x).toNat - 1) ∧
    ((∀ x, decodeWord w ≠ .instr (.ldStVx x)) → t.st.toNat = s.st.toNat - 1) ∧
    (∀ x, decodeWord w = .instr (.ldStVx x) → t.st.toNat = (s.getV x).toNat - 1)

/-- R83, R100: where a completed step leaves PC. The jumps, CALL and RET put it at their target, a skip
at PC + 2 or PC + 4, a key-wait at PC or PC + 2, every other word at PC + 2. -/
def Obligations.CompletedStepSetsPc : Prop :=
  ∀ (s t : State) (w : Word), step s = .next t → s.fetch = .ok w →
    match decodeWord w with
    | .instr (.jpNnn nnn) | .instr (.callNnn nnn) => t.pc.toNat = nnn.toNat
    | .instr (.jpV0Nnn nnn) => t.pc.toNat = nnn.toNat + (s.getV 0).toNat
    | .instr .ret => ∃ h : 0 < s.sp.val, t.pc = s.stack[s.sp.val - 1]
    | .instr (.seVxKk _ _) | .instr (.sneVxKk _ _) | .instr (.seVxVy _ _ _)
    | .instr (.sneVxVy _ _ _) | .instr (.skpVx _) | .instr (.sknpVx _) =>
      t.pc = s.pc + 2 ∨ t.pc = s.pc + 4
    | .instr (.ldVxK _) => t.pc = s.pc ∨ t.pc = s.pc + 2
    | _ => t.pc = s.pc + 2

/-- R150, R156 (D5, D6, D24): an error of a step records the instruction's address, and its word unless
the fetch itself failed; then it is AddressOutOfRange at the first address out of memory. -/
def Obligations.ErrorRecordsAddressAndWord : Prop :=
  ∀ s e, step s = .fault e →
    (s.pc.toNat + 1 < 4096 ∧ e.pc0 = some s.pc ∧
      e.word = some (joinBytes (s.readByte s.pc.toNat) (s.readByte (s.pc.toNat + 1)))) ∨
    (4096 ≤ s.pc.toNat + 1 ∧ e = .addressOutOfRange s.pc none (max s.pc.toNat 4096))

/-- Log 22 (the model's own): a word placed for the fetch is the word the next step fetches, and nothing
else of the state is touched but its two bytes. -/
def Obligations.PlacedWordIsFetched : Prop :=
  ∀ (s : State) (w : Nat), s.pc.toNat + 1 < 4096 → w < 65536 →
    (∃ v, (s.withFetchWord 16 w).fetch = .ok v ∧ v.toNat = w) ∧
    Frame [] [s.pc.toNat, s.pc.toNat + 1] s (s.withFetchWord 16 w)

/-! ### Control flow -/

/-- R91 (D10): SYS changes nothing. -/
def Obligations.SysIsNoOp : Prop :=
  ∀ nnn s, ∃ t, exec (.sysNnn nnn) s = .next t ∧ Frame [] [] s t

/-- R92: RET pops the most recent return address, keeping every slot; with SP = 0 it raises
StackUnderflow. -/
def Obligations.ReturnPopsOrUnderflows : Prop :=
  ∀ s : State,
    (∀ h : 0 < s.sp.val, ∃ t, exec .ret s = .next t ∧ t.sp.val + 1 = s.sp.val ∧
      t.pc = s.stack[s.sp.val - 1] ∧ t.stack = s.stack ∧ Frame [.pc, .stack] [] s t) ∧
    (s.sp.val = 0 → exec .ret s = .fault (.stackUnderflow (s.pc - 2) 0x00EE))

/-- R93. -/
def Obligations.JumpSetsPc : Prop :=
  ∀ nnn s, ∃ t, exec (.jpNnn nnn) s = .next t ∧ t.pc.toNat = nnn.toNat ∧ Frame [.pc] [] s t

/-- R94 (D7): the sum is not masked to 12 bits. -/
def Obligations.JumpV0AddsWithoutMask : Prop :=
  ∀ nnn s, ∃ t, exec (.jpV0Nnn nnn) s = .next t ∧ t.pc.toNat = nnn.toNat + (s.getV 0).toNat ∧
    Frame [.pc] [] s t

/-- R95 (D9): CALL pushes PC, which is the address after the CALL, and jumps; with SP = 16 it raises
StackOverflow. -/
def Obligations.CallPushesOrOverflows : Prop :=
  ∀ nnn (s : State),
    (∀ h : s.sp.val < 16, ∃ t, exec (.callNnn nnn) s = .next t ∧ t.sp.val = s.sp.val + 1 ∧
      t.stack[s.sp.val] = s.pc ∧ (∀ k, (hk : k < 16) → k ≠ s.sp.val → t.stack[k] = s.stack[k]) ∧
      t.pc.toNat = nnn.toNat ∧ Frame [.pc, .stack] [] s t) ∧
    (s.sp.val = 16 →
      exec (.callNnn nnn) s = .fault (.stackOverflow (s.pc - 2) (encode (.callNnn nnn))))

/-- R22, R23 (D9): a RET after a CALL comes back to the address after the CALL with SP as it was, whatever
the subroutine did to the rest of the machine. -/
def Obligations.ReturnUndoesCall : Prop :=
  ∀ nnn (s t u : State), exec (.callNnn nnn) s = .next t → u.stack = t.stack → u.sp = t.sp →
    ∃ r, exec .ret u = .next r ∧ r.pc = s.pc ∧ r.sp = s.sp ∧
      ∀ k, (h : k < 16) → k < s.sp.val → r.stack[k] = s.stack[k]

/-- R96, R97. -/
def Obligations.SkipOnImmediate : Prop :=
  ∀ x kk (s : State),
    (∃ t, exec (.seVxKk x kk) s = .next t ∧
      t.pc.toNat = (s.pc.toNat + if s.getV x = kk then 2 else 0) % 65536 ∧ Frame [.pc] [] s t) ∧
    (∃ t, exec (.sneVxKk x kk) s = .next t ∧
      t.pc.toNat = (s.pc.toNat + if s.getV x = kk then 0 else 2) % 65536 ∧ Frame [.pc] [] s t)

/-- R98, R99 (D12): whatever the low nibble. -/
def Obligations.SkipOnRegisters : Prop :=
  ∀ x y n (s : State),
    (∃ t, exec (.seVxVy x y n) s = .next t ∧
      t.pc.toNat = (s.pc.toNat + if s.getV x = s.getV y then 2 else 0) % 65536 ∧
      Frame [.pc] [] s t) ∧
    (∃ t, exec (.sneVxVy x y n) s = .next t ∧
      t.pc.toNat = (s.pc.toNat + if s.getV x = s.getV y then 0 else 2) % 65536 ∧
      Frame [.pc] [] s t)

/-! ### Immediate and register arithmetic -/

/-- R106, R107: no flag; VF changes only as the destination. -/
def Obligations.LoadAndAddImmediate : Prop :=
  ∀ x kk (s : State),
    (∃ t, exec (.ldVxKk x kk) s = .next t ∧ t.getV x = kk ∧ Frame [.v x] [] s t) ∧
    (∃ t, exec (.addVxKk x kk) s = .next t ∧
      (t.getV x).toNat = ((s.getV x).toNat + kk.toNat) % 256 ∧ Frame [.v x] [] s t)

/-- R109, R110, R111, R112: copy and logic, bit by bit; no flag. -/
def Obligations.CopyAndLogic : Prop :=
  ∀ x y (s : State),
    (∃ t, exec (.ldVxVy x y) s = .next t ∧ t.getV x = s.getV y ∧ Frame [.v x] [] s t) ∧
    (∃ t, exec (.orVxVy x y) s = .next t ∧
      (∀ k, (t.getV x).getLsbD k = ((s.getV x).getLsbD k || (s.getV y).getLsbD k)) ∧
      Frame [.v x] [] s t) ∧
    (∃ t, exec (.andVxVy x y) s = .next t ∧
      (∀ k, (t.getV x).getLsbD k = ((s.getV x).getLsbD k && (s.getV y).getLsbD k)) ∧
      Frame [.v x] [] s t) ∧
    (∃ t, exec (.xorVxVy x y) s = .next t ∧
      (∀ k, (t.getV x).getLsbD k = ((s.getV x).getLsbD k ^^ (s.getV y).getLsbD k)) ∧
      Frame [.v x] [] s t)

/-- R113 (D14 for x = F): the sum modulo 256 and the carry, both from the original operands. -/
def Obligations.AddRegistersSumAndCarry : Prop :=
  ∀ x y (s : State), ∃ t, exec (.addVxVy x y) s = .next t ∧
    (x ≠ regF → (t.getV x).toNat = ((s.getV x).toNat + (s.getV y).toNat) % 256) ∧
    (t.getV regF).toNat = (if 255 < (s.getV x).toNat + (s.getV y).toNat then 1 else 0) ∧
    Frame [.v x, .v regF] [] s t

/-- R114, R116 (GK7; D14 for x = F): the difference modulo 256 and "no borrow". -/
def Obligations.SubtractDifferenceAndNoBorrow : Prop :=
  ∀ x y (s : State),
    (∃ t, exec (.subVxVy x y) s = .next t ∧
      (x ≠ regF → (t.getV x).toNat = ((s.getV x).toNat + 256 - (s.getV y).toNat) % 256) ∧
      (t.getV regF).toNat = (if (s.getV y).toNat ≤ (s.getV x).toNat then 1 else 0) ∧
      Frame [.v x, .v regF] [] s t) ∧
    (∃ t, exec (.subnVxVy x y) s = .next t ∧
      (x ≠ regF → (t.getV x).toNat = ((s.getV y).toNat + 256 - (s.getV x).toNat) % 256) ∧
      (t.getV regF).toNat = (if (s.getV x).toNat ≤ (s.getV y).toNat then 1 else 0) ∧
      Frame [.v x, .v regF] [] s t)

/-- R115, R117 with `SHIFT_USES_VY = false` (D15, log 3; D14 for x = F): VF is the bit shifted out. -/
def Obligations.ShiftsByOneAndFlag : Prop :=
  ∀ x y (s : State),
    (∃ t, exec (.shrVxVy x y) s = .next t ∧
      (x ≠ regF → (t.getV x).toNat = (s.getV x).toNat / 2) ∧
      (t.getV regF).toNat = (s.getV x).toNat % 2 ∧ Frame [.v x, .v regF] [] s t) ∧
    (∃ t, exec (.shlVxVy x y) s = .next t ∧
      (x ≠ regF → (t.getV x).toNat = 2 * (s.getV x).toNat % 256) ∧
      (t.getV regF).toNat = (s.getV x).toNat / 128 ∧ Frame [.v x, .v regF] [] s t)

/-! ### Index register and memory transfer -/

/-- R126, R128. -/
def Obligations.LoadIndexAndGlyph : Prop :=
  (∀ nnn s, ∃ t, exec (.ldINnn nnn) s = .next t ∧ t.i.toNat = nnn.toNat ∧ Frame [.i] [] s t) ∧
  (∀ x (s : State), ∃ t, exec (.ldFVx x) s = .next t ∧
    t.i.toNat = 5 * ((s.getV x).toNat % 16) ∧ Frame [.i] [] s t)

/-- R127 (D8): modulo 2^16, and no flag. -/
def Obligations.AddIndexWrapsWithoutFlag : Prop :=
  ∀ x (s : State), ∃ t, exec (.addIVx x) s = .next t ∧
    t.i.toNat = (s.i.toNat + (s.getV x).toNat) % 65536 ∧ Frame [.i] [] s t

/-- R129 (D3, D24): the three digits, or the first failing address and nothing written. -/
def Obligations.BcdStoresDigitsOrFails : Prop :=
  ∀ x (s : State),
    (0x1FF < s.i.toNat → s.i.toNat + 2 < 4096 → ∃ t, exec (.ldBVx x) s = .next t ∧
      (t.readByte s.i.toNat).toNat = (s.getV x).toNat / 100 ∧
      (t.readByte (s.i.toNat + 1)).toNat = (s.getV x).toNat / 10 % 10 ∧
      (t.readByte (s.i.toNat + 2)).toNat = (s.getV x).toNat % 10 ∧
      Frame [] [s.i.toNat, s.i.toNat + 1, s.i.toNat + 2] s t) ∧
    (s.i.toNat ≤ 0x1FF →
      exec (.ldBVx x) s = .fault (.reservedWrite (s.pc - 2) (encode (.ldBVx x)) s.i.toNat)) ∧
    (4096 ≤ s.i.toNat + 2 → exec (.ldBVx x) s =
      .fault (.addressOutOfRange (s.pc - 2) (some (encode (.ldBVx x))) (max s.i.toNat 4096)))

/-- R130 (D3, D24): V[0]..V[x] stored from I on and I advanced by x + 1, or the first failing address and
nothing written. -/
def Obligations.BlockStoreOrFails : Prop :=
  ∀ x (s : State),
    (0x1FF < s.i.toNat → s.i.toNat + x.val < 4096 → ∃ t, exec (.ldMemVx x) s = .next t ∧
      (∀ k : Reg, k ≤ x → t.readByte (s.i.toNat + k.val) = s.getV k) ∧
      t.i.toNat = (s.i.toNat + x.val + 1) % 65536 ∧
      (∀ a, a < s.i.toNat ∨ s.i.toNat + x.val < a → t.readByte a = s.readByte a) ∧
      Frame [.i] ((List.range (x.val + 1)).map (s.i.toNat + ·)) s t) ∧
    (s.i.toNat ≤ 0x1FF →
      exec (.ldMemVx x) s = .fault (.reservedWrite (s.pc - 2) (encode (.ldMemVx x)) s.i.toNat)) ∧
    (4096 ≤ s.i.toNat + x.val → 0x1FF < s.i.toNat → exec (.ldMemVx x) s =
      .fault (.addressOutOfRange (s.pc - 2) (some (encode (.ldMemVx x))) (max s.i.toNat 4096)))

/-- R131: V[0]..V[x] loaded from I on and I advanced by x + 1, or the first address of 4096 or more
(what the error records besides is ErrorRecordsAddressAndWord). -/
def Obligations.BlockLoadOrFails : Prop :=
  ∀ x (s : State),
    (s.i.toNat + x.val < 4096 → ∃ t, exec (.ldVxMem x) s = .next t ∧
      (∀ k : Reg, k ≤ x → t.getV k = s.readByte (s.i.toNat + k.val)) ∧
      (∀ k : Reg, x < k → t.getV k = s.getV k) ∧
      t.i.toNat = (s.i.toNat + x.val + 1) % 65536 ∧ Frame (.i :: regsThrough x) [] s t) ∧
    (∀ k, k ≤ x.val → 4096 ≤ s.i.toNat + k → (∀ j, j < k → s.i.toNat + j < 4096) →
      ∃ pc0 w, exec (.ldVxMem x) s = .fault (.addressOutOfRange pc0 w (s.i.toNat + k)))

/-- R132: store, set I back, load: V[0]..V[x] come back, whatever was done to the registers in between,
and I is nnn + x + 1. -/
def Obligations.BlockStoreThenLoadRoundTrips : Prop :=
  ∀ x (nnn : Addr12) (s : State) (scrambled : Vector Byte 16),
    s.i.toNat = nnn.toNat → 0x1FF < nnn.toNat → nnn.toNat + x.val < 4096 →
    ∃ t u r, exec (.ldMemVx x) s = .next t ∧
      exec (.ldINnn nnn) { t with v := scrambled } = .next u ∧ exec (.ldVxMem x) u = .next r ∧
      (∀ k : Reg, k ≤ x → r.getV k = s.getV k) ∧ r.i.toNat = nnn.toNat + x.val + 1

/-- R57 (derived by the spec): bytes a program stores are what the next fetch from there reads. -/
def Obligations.StoredBytesAreFetchedNext : Prop :=
  ∀ x (s t : State), exec (.ldMemVx x) s = .next t → ∀ k : Reg, k.val + 1 ≤ x.val →
    (∀ j : Reg, j.val = k.val + 1 →
      State.fetch { t with pc := s.i + BitVec.ofNat 16 k.val } =
        .ok (joinBytes (s.getV k) (s.getV j)))

/-! ### Display -/

/-- R134. -/
def Obligations.ClearScreenZeroesPixels : Prop :=
  ∀ s, ∃ t, exec .cls s = .next t ∧
    (∀ px py, px < 64 → py < 32 → pixel t.fb px py = some false) ∧ t.dirty = true ∧
    Frame [.fb, .dirty] [] s t

/-- R135, R136 (D16, D17, D24, D27): exactly the pixels of the grid that the sprite covers are XORed with
1, VF says whether one of them was 1, and dirty is set; x or y = F takes the coordinate from VF's old
value. -/
def Obligations.DrawXorsCoveredPixels : Prop :=
  ∀ x y n (s : State), (∀ r, r < n.toNat → s.i.toNat + r < 4096) →
    ∃ t, exec (.drwVxVyN x y n) s = .next t ∧
      (∀ px py, px < 64 → py < 32 →
        (spriteCovers s x y n px py → pixel t.fb px py = (pixel s.fb px py).map (!·)) ∧
        (¬ spriteCovers s x y n px py → pixel t.fb px py = pixel s.fb px py)) ∧
      ((∃ px py, px < 64 ∧ py < 32 ∧ spriteCovers s x y n px py ∧ pixel s.fb px py = some true) →
        t.getV regF = 1) ∧
      ((¬ ∃ px py, px < 64 ∧ py < 32 ∧ spriteCovers s x y n px py ∧ pixel s.fb px py = some true) →
        t.getV regF = 0) ∧
      t.dirty = true ∧ Frame [.v regF, .fb, .dirty] [] s t

/-- R136 (D24): a sprite with a row outside memory is not drawn at all. -/
def Obligations.DrawOutOfMemoryFails : Prop :=
  ∀ x y (n : Nibble) (s : State), n.toNat ≠ 0 → 4096 < s.i.toNat + n.toNat →
    exec (.drwVxVyN x y n) s =
      .fault (.addressOutOfRange (s.pc - 2) (some (encode (.drwVxVyN x y n))) (max s.i.toNat 4096))

/-- R137(a) as R136 makes it (C12, log 25): drawing the same sprite twice at the same place restores every
pixel, and the second draw sets VF exactly when the sprite covers a pixel of the grid that was 0. With
x or y = F the second draw takes its coordinate from the flag the first one left, so it is not at the same
place. -/
def Obligations.DrawingTwiceRestoresFramebuffer : Prop :=
  ∀ x y n (s t : State), x ≠ regF → y ≠ regF → exec (.drwVxVyN x y n) s = .next t →
    ∃ u, exec (.drwVxVyN x y n) t = .next u ∧ u.fb = s.fb ∧
      (u.getV regF = 1 ↔
        ∃ px py, px < 64 ∧ py < 32 ∧ spriteCovers s x y n px py ∧ pixel s.fb px py = some false)

/-! ### Random, timers and keypad -/

/-- R139 with the draw of R138 (D21): the step's draw AND kk. That the draw is the free value
`Config.rand8` at the state's `drawCount` is the model's choice (log 18); the statement holds for every
`drawCount`. -/
def Obligations.RandomIsDrawAndMask : Prop :=
  ∀ x kk (s : State), ∃ t, exec (.rndVxKk x kk) s = .next t ∧
    (∀ k, (t.getV x).getLsbD k = ((Sys2Proof.Config.rand8 s.drawCount).getLsbD k && kk.getLsbD k)) ∧
    Frame [.v x] [] s t

/-- R140, R141, R142: the handlers, and the whole steps, in which the tick follows: LD VX, DT reads DT
before it, LD DT and LD ST are ticked in their own step. -/
def Obligations.TimerTransfers : Prop :=
  (∀ x (s : State),
    (∃ t, exec (.ldVxDt x) s = .next t ∧ t.getV x = s.dt ∧ Frame [.v x] [] s t) ∧
    (∃ t, exec (.ldDtVx x) s = .next t ∧ t.dt = s.getV x ∧ Frame [.dt] [] s t) ∧
    (∃ t, exec (.ldStVx x) s = .next t ∧ t.st = s.getV x ∧ Frame [.st] [] s t)) ∧
  (∀ x (s : State) (w : Word), s.status = .ready → s.fetch = .ok w →
    (decodeWord w = .instr (.ldVxDt x) →
      ∃ t, step s = .next t ∧ t.getV x = s.dt ∧ t.dt.toNat = s.dt.toNat - 1) ∧
    (decodeWord w = .instr (.ldDtVx x) →
      ∃ t, step s = .next t ∧ t.dt.toNat = (s.getV x).toNat - 1) ∧
    (decodeWord w = .instr (.ldStVx x) →
      ∃ t, step s = .next t ∧ t.st.toNat = (s.getV x).toNat - 1))

/-- R143 (D19): the smallest pressed key, or back to the instruction itself. -/
def Obligations.KeyWaitTakesSmallestOrWaits : Prop :=
  ∀ x (s : State),
    (∀ k, k < 16 → s.keyDown k = true → (∀ j, j < k → s.keyDown j = false) →
      ∃ t, exec (.ldVxK x) s = .next t ∧ (t.getV x).toNat = k ∧ Frame [.v x] [] s t) ∧
    ((∀ k, k < 16 → s.keyDown k = false) →
      ∃ t, exec (.ldVxK x) s = .next t ∧ t.pc = s.pc - 2 ∧ Frame [.pc] [] s t)

/-- R146 (derived by the spec): a key-wait with no key pressed leaves PC at its own address for any number
of steps, while the timers count down. -/
def Obligations.KeyWaitHoldsPcForEver : Prop :=
  ∀ (s : State) (w : Word) (x : Reg) (n : Nat), s.status = .ready → s.fetch = .ok w →
    decodeWord w = .instr (.ldVxK x) → (∀ k, k < 16 → s.keyDown k = false) →
    ∃ t, Host.Core.run Sys2Proof.core n s = .next t ∧ t.dt.toNat = s.dt.toNat - n ∧
      t.st.toNat = s.st.toNat - n ∧
      Frame [.dt, .st] [] s { t with drawCount := s.drawCount }

/-- R144, R145, R154 (D20): skip on the key's flag; KeyOutOfRange when V[x] is no key. -/
def Obligations.KeySkipsOrFail : Prop :=
  ∀ x (s : State),
    ((s.getV x).toNat ≤ 15 →
      (∃ t, exec (.skpVx x) s = .next t ∧ t.pc.toNat =
        (s.pc.toNat + if s.keyDown (s.getV x).toNat then 2 else 0) % 65536 ∧ Frame [.pc] [] s t) ∧
      (∃ t, exec (.sknpVx x) s = .next t ∧ t.pc.toNat =
        (s.pc.toNat + if s.keyDown (s.getV x).toNat then 0 else 2) % 65536 ∧ Frame [.pc] [] s t)) ∧
    (15 < (s.getV x).toNat →
      exec (.skpVx x) s = .fault (.keyOutOfRange (s.pc - 2) (encode (.skpVx x)) (s.getV x)) ∧
      exec (.sknpVx x) s = .fault (.keyOutOfRange (s.pc - 2) (encode (.sknpVx x)) (s.getV x)))

/-! ### Rules of the whole machine -/

/-- Every handler changes only what its rule names: `mayChange` and, in memory, the bytes at
`storedAddrs`, which it computes from I as the meaning does. So only LD B and LD [I] store (R41), only
CALL and RET touch the stack (R22), only CLS and DRW the framebuffer (R26), none the keypad (R28). -/
def Obligations.HandlersChangeOnlyTheirOwn : Prop :=
  ∀ i s t, exec i s = .next t → Frame (mayChange i) (storedAddrs i s) s t

/-- A handler completes exactly when its rule raises no error, and otherwise it raises one: no handler
refuses. -/
def Obligations.HandlerCompletesExactlyWhen : Prop :=
  ∀ i s, (Completes i s → ∃ t, exec i s = .next t) ∧ (¬ Completes i s → ∃ e, exec i s = .fault e)

/-- R17 (log 7 for x = F): VF is written as a side effect by 8XY4, 8XY5, 8XY6, 8XY7, 8XYE and DXYN, which
leave 0 or 1 in it, and otherwise only by an instruction that names it as destination or loads it. -/
def Obligations.VfWritersAreExactlyThese : Prop :=
  ∀ i s t, exec i s = .next t →
    match i with
    | .addVxVy _ _ | .subVxVy _ _ | .shrVxVy _ _ | .subnVxVy _ _ | .shlVxVy _ _
    | .drwVxVyN _ _ _ => t.getV regF = 0 ∨ t.getV regF = 1
    | .ldVxKk x _ | .addVxKk x _ | .ldVxVy x _ | .orVxVy x _ | .andVxVy x _ | .xorVxVy x _
    | .rndVxKk x _ | .ldVxDt x | .ldVxK x | .ldVxMem x => x ≠ regF → t.getV regF = s.getV regF
    | _ => t.getV regF = s.getV regF

/-- R27: CLS and DRW set the dirty flag, every other handler leaves it; only the host clears it. -/
def Obligations.DirtySetByDrawingOnly : Prop :=
  ∀ i s t, exec i s = .next t →
    match i with
    | .cls | .drwVxVyN _ _ _ => t.dirty = true
    | _ => t.dirty = s.dirty

/-- R23: no instruction can read a slot at index SP or above: two states that differ only in stale slots
give the same outcome of a step, up to stale slots again. -/
def Obligations.StaleSlotsCannotBeRead : Prop :=
  ∀ s t, AgreeUpToStale s t → OutcomesAgree (step s) (step t)

/-! ### The host's calls -/

/-- R172 (D23): a program that fits is copied to 0x200 and nothing else changes; one that does not gives
OversizedProgram and the status Unloadable, whatever the status was. The answer of a step asked for next,
`notPermitted`, is the model's choice (log 17). -/
def Obligations.LoadProgramCopiesOrFails : Prop :=
  ∀ bytes (s : State),
    (bytes.length ≤ 3584 → (loadProgram bytes s).1 = .ok ∧
      (∀ k, (h : k < bytes.length) → (loadProgram bytes s).2.readByte (0x200 + k) = bytes[k]) ∧
      Frame [] ((List.range bytes.length).map (0x200 + ·)) s (loadProgram bytes s).2) ∧
    (3584 < bytes.length → (loadProgram bytes s).1 = .error (.oversizedProgram bytes.length) ∧
      (loadProgram bytes s).2.status = .unloadable ∧
      (hostStep (loadProgram bytes s).2).1 = .notPermitted)

/-- R150 (D6): a step that ends in an error tells the host and leaves the machine Failed with that error;
R171: `initialize()` makes it Ready again. The spec puts a further call of `step()` outside itself (R161,
U13): that it is answered `notPermitted` and changes nothing is the model's choice (log 17). The rest of
the state after the error is a free value (log 17). -/
def Obligations.ErrorFailsTheMachine : Prop :=
  ∀ s e, step s = .fault e →
    (hostStep s).1 = .error e ∧ (hostStep s).2.status = .failed e ∧
    hostStep (hostStep s).2 = (.notPermitted, (hostStep s).2) ∧
    (initializeMachine (hostStep s).2).status = .ready

/-- R171 (D22): `initialize()` gives the reset state from every state; the draws go on (log 18). -/
def Obligations.InitializeGivesReset : Prop :=
  ∀ s, { initializeMachine s with drawCount := 0 } = State.reset ∧
    (initializeMachine s).drawCount = s.drawCount
end

