-- ==== Sys2Proof/Laws/Decode.lean ====
section
/-! SUPPORT. The fields of a packed word, the fields as numbers, and a word packed from its fields. -/

namespace Sys2Proof

/-! ### Fields as numbers (R61) -/

theorem toNat_fieldOp (w : Word) : (fieldOp w).toNat = w.toNat / 4096 % 16 := by
  simp [fieldOp, BitVec.extractLsb'_toNat, Nat.shiftRight_eq_div_pow]

theorem val_fieldX (w : Word) : (fieldX w).val = w.toNat / 256 % 16 := by
  simp [fieldX, Nat.shiftRight_eq_div_pow]

theorem val_fieldY (w : Word) : (fieldY w).val = w.toNat / 16 % 16 := by
  simp [fieldY, Nat.shiftRight_eq_div_pow]

theorem toNat_fieldN (w : Word) : (fieldN w).toNat = w.toNat % 16 := by
  simp [fieldN, BitVec.extractLsb'_toNat]

theorem toNat_fieldKk (w : Word) : (fieldKk w).toNat = w.toNat % 256 := by
  simp [fieldKk, BitVec.extractLsb'_toNat]

theorem toNat_fieldNnn (w : Word) : (fieldNnn w).toNat = w.toNat % 4096 := by
  simp [fieldNnn, BitVec.extractLsb'_toNat]

theorem toNat_fieldHi (w : Word) : (fieldHi w).toNat = w.toNat / 256 % 256 := by
  simp [fieldHi, BitVec.extractLsb'_toNat, Nat.shiftRight_eq_div_pow]

/-! ### Packed words as numbers (R63) -/

theorem toNat_append_eq {m n : Nat} (a : BitVec m) (b : BitVec n) :
    (a ++ b).toNat = a.toNat * 2 ^ n + b.toNat := by
  rw [BitVec.toNat_append, ← Nat.shiftLeft_add_eq_or_of_lt b.isLt, Nat.shiftLeft_eq]

theorem toNat_packA (op : BitVec 4) (nnn : Addr12) :
    (packA op nnn).toNat = op.toNat * 4096 + nnn.toNat := by
  exact toNat_append_eq op nnn

theorem toNat_packXK (op : BitVec 4) (x : Reg) (kk : Byte) :
    (packXK op x kk).toNat = op.toNat * 4096 + x.val * 256 + kk.toNat := by
  simp only [packXK, toNat_append_eq, BitVec.toNat_ofFin]; omega

theorem toNat_packXY (op : BitVec 4) (x y : Reg) (n : Nibble) :
    (packXY op x y n).toNat = op.toNat * 4096 + x.val * 256 + y.val * 16 + n.toNat := by
  simp only [packXY, toNat_append_eq, BitVec.toNat_ofFin]; omega

/-! ### The fields of a packed word -/

section
variable (op : BitVec 4) (nnn : Addr12) (x y : Reg) (kk : Byte) (n : Nibble)

@[simp] theorem fieldOp_packA : fieldOp (packA op nnn) = op := by
  apply BitVec.eq_of_toNat_eq
  rw [toNat_fieldOp, toNat_packA]; have := nnn.isLt; have := op.isLt; omega

@[simp] theorem fieldNnn_packA : fieldNnn (packA op nnn) = nnn := by
  apply BitVec.eq_of_toNat_eq
  rw [toNat_fieldNnn, toNat_packA]; have := nnn.isLt; omega

@[simp] theorem fieldOp_packXK : fieldOp (packXK op x kk) = op := by
  apply BitVec.eq_of_toNat_eq
  rw [toNat_fieldOp, toNat_packXK]; have := kk.isLt; have := op.isLt; have := x.isLt; omega

@[simp] theorem fieldX_packXK : fieldX (packXK op x kk) = x := by
  apply Fin.ext
  rw [val_fieldX, toNat_packXK]; have := kk.isLt; have := op.isLt; have := x.isLt; omega

@[simp] theorem fieldKk_packXK : fieldKk (packXK op x kk) = kk := by
  apply BitVec.eq_of_toNat_eq
  rw [toNat_fieldKk, toNat_packXK]; have := kk.isLt; omega

@[simp] theorem fieldOp_packXY : fieldOp (packXY op x y n) = op := by
  apply BitVec.eq_of_toNat_eq
  rw [toNat_fieldOp, toNat_packXY]
  have := n.isLt; have := op.isLt; have := x.isLt; have := y.isLt; omega

@[simp] theorem fieldX_packXY : fieldX (packXY op x y n) = x := by
  apply Fin.ext
  rw [val_fieldX, toNat_packXY]
  have := n.isLt; have := op.isLt; have := x.isLt; have := y.isLt; omega

@[simp] theorem fieldY_packXY : fieldY (packXY op x y n) = y := by
  apply Fin.ext
  rw [val_fieldY, toNat_packXY]
  have := n.isLt; have := op.isLt; have := x.isLt; have := y.isLt; omega

@[simp] theorem fieldN_packXY : fieldN (packXY op x y n) = n := by
  apply BitVec.eq_of_toNat_eq
  rw [toNat_fieldN, toNat_packXY]; have := n.isLt; omega

end

/-! ### A word packed from its own fields -/

theorem packA_fields (w : Word) : packA (fieldOp w) (fieldNnn w) = w := by
  apply BitVec.eq_of_toNat_eq
  rw [toNat_packA, toNat_fieldOp, toNat_fieldNnn]; have := w.isLt; omega

theorem packXK_fields (w : Word) : packXK (fieldOp w) (fieldX w) (fieldKk w) = w := by
  apply BitVec.eq_of_toNat_eq
  rw [toNat_packXK, toNat_fieldOp, val_fieldX, toNat_fieldKk]; have := w.isLt; omega

theorem packXY_fields (w : Word) :
    packXY (fieldOp w) (fieldX w) (fieldY w) (fieldN w) = w := by
  apply BitVec.eq_of_toNat_eq
  rw [toNat_packXY, toNat_fieldOp, val_fieldX, val_fieldY, toNat_fieldN]; have := w.isLt; omega

@[simp] theorem joinBytes_fields (w : Word) : joinBytes (fieldHi w) (fieldKk w) = w := by
  apply BitVec.eq_of_toNat_eq
  rw [joinBytes, toNat_append_eq, toNat_fieldHi, toNat_fieldKk]; have := w.isLt; omega

/-! ### The masks of the opcode map (R71) in terms of the fields -/

theorem getLsbD_packA (op : BitVec 4) (nnn : Addr12) (k : Nat) :
    (packA op nnn).getLsbD k = if k < 12 then nnn.getLsbD k else op.getLsbD (k - 12) :=
  BitVec.getLsbD_append

theorem getLsbD_field (w : Word) (start len k : Nat) :
    (w.extractLsb' start len).getLsbD k = (decide (k < len) && w.getLsbD (start + k)) :=
  BitVec.getLsbD_extractLsb' start len w k

/-- The word with its bits outside the first `len` cleared, and its top nibble kept. -/
theorem and_keep (w mask : Word) (len : Nat)
    (hm : ∀ k, k < 16 → mask.getLsbD k = decide (k < len ∨ 12 ≤ k)) :
    w &&& mask = packA (fieldOp w) ((w.extractLsb' 0 len).setWidth 12) := by
  apply BitVec.eq_of_getLsbD_eq
  intro k hk
  rw [BitVec.getLsbD_and, hm k hk, getLsbD_packA, fieldOp, BitVec.getLsbD_setWidth, getLsbD_field,
    getLsbD_field, Nat.zero_add]
  by_cases h : k < 12
  · have h1 : ¬ 12 ≤ k := by omega
    simp [h, h1, Bool.and_comm]
  · have h1 : 12 ≤ k := by omega
    have h2 : k - 12 < 4 := by omega
    simp [h, h1, h2]

theorem and_maskOp (w : Word) : w &&& 0xF000 = packA (fieldOp w) 0 := by
  rw [and_keep w 0xF000 0 (by decide)]
  congr 1
  apply BitVec.eq_of_toNat_eq
  simp

theorem and_maskOpN (w : Word) : w &&& 0xF00F = packA (fieldOp w) ((fieldN w).setWidth 12) :=
  and_keep w 0xF00F 4 (by decide)

theorem and_maskOpKk (w : Word) : w &&& 0xF0FF = packA (fieldOp w) ((fieldKk w).setWidth 12) :=
  and_keep w 0xF0FF 8 (by decide)

theorem and_maskOp_iff (w : Word) (p : Nibble) :
    w &&& 0xF000 = packA p 0 ↔ fieldOp w = p := by
  rw [and_maskOp]
  constructor
  · intro h; rw [← fieldOp_packA (fieldOp w) 0, h, fieldOp_packA]
  · intro h; rw [h]

theorem and_maskOpN_iff (w : Word) (p n : Nibble) :
    w &&& 0xF00F = packA p (n.setWidth 12) ↔ fieldOp w = p ∧ fieldN w = n := by
  rw [and_maskOpN]
  constructor
  · intro h
    have h1 := congrArg BitVec.toNat h
    rw [toNat_packA, toNat_packA, BitVec.toNat_setWidth, BitVec.toNat_setWidth] at h1
    have := (fieldN w).isLt
    have := n.isLt
    exact ⟨BitVec.eq_of_toNat_eq (by omega), BitVec.eq_of_toNat_eq (by omega)⟩
  · rintro ⟨rfl, rfl⟩; rfl

theorem and_maskOpKk_iff (w : Word) (p : Nibble) (kk : Byte) :
    w &&& 0xF0FF = packA p (kk.setWidth 12) ↔ fieldOp w = p ∧ fieldKk w = kk := by
  rw [and_maskOpKk]
  constructor
  · intro h
    have h1 := congrArg BitVec.toNat h
    rw [toNat_packA, toNat_packA, BitVec.toNat_setWidth, BitVec.toNat_setWidth] at h1
    have := (fieldKk w).isLt
    have := kk.isLt
    exact ⟨BitVec.eq_of_toNat_eq (by omega), BitVec.eq_of_toNat_eq (by omega)⟩
  · rintro ⟨rfl, rfl⟩; rfl

theorem and_maskAll (w : Word) : w &&& 0xFFFF = w := BitVec.and_allOnes

/-! ### Cases of the decoder -/

/-- The sixteen nibbles. -/
theorem nibble_cases (o : Nibble) :
    o ∈ [0x0#4, 0x1#4, 0x2#4, 0x3#4, 0x4#4, 0x5#4, 0x6#4, 0x7#4] ∨
    o ∈ [0x8#4, 0x9#4, 0xA#4, 0xB#4, 0xC#4, 0xD#4, 0xE#4, 0xF#4] := by
  revert o; decide

/-- The first two levels in terms of the fields: which family decodes a word (R64). -/
theorem decodeWord_of_fieldOp (w : Word) :
    (fieldOp w = 0x0 → decodeWord w = decodeFamily0 w) ∧
    (fieldOp w = 0x8 → decodeWord w = decodeFamily8 w) ∧
    (fieldOp w = 0xE → decodeWord w = decodeFamilyE w) ∧
    (fieldOp w = 0xF → decodeWord w = decodeFamilyF w) := by
  refine ⟨?_, ?_, ?_, ?_⟩ <;> intro h <;> simp [decodeWord, h]

theorem decodeTableWord_eq (nbits w : Nat) : decodeTableWord nbits w =
    match decodeWord (tableWord nbits w) with
    | .instr i => some i
    | .unassigned _ => none := by
  simp only [decodeTableWord, decodeBytes, joinBytes_fields]
  cases decodeWord (tableWord nbits w) <;> rfl

end Sys2Proof
end

