-- ==== Sys2Proof/Laws/Memory.lean ====
section
/-! SUPPORT. Memory: read after write, what a run of writes leaves, the canonical form kept by every
operation, and equal memories as equal data. -/

namespace Sys2Proof.Machine

/-! ### Read after write -/

@[simp] theorem Memory.read_nil (a : Nat) : Memory.read [] a = resetByte a := rfl

theorem Memory.read_erase (m : Memory) (a b : Nat) :
    Memory.read (Memory.erase m a) b = if b = a then resetByte a else Memory.read m b := by
  induction m with
  | nil => by_cases h : b = a <;> simp [Memory.erase, h]
  | cons c rest ih =>
    obtain ⟨d, v⟩ := c
    by_cases hd : d = a
    · subst hd
      by_cases hb : b = d
      · subst hb; simp [Memory.erase, ih]
      · simp [Memory.erase, Memory.read, ih, hb, Ne.symm hb]
    · by_cases hb : d = b
      · subst hb; simp [Memory.erase, Memory.read, hd]
      · simp [Memory.erase, Memory.read, hd, hb, ih]

theorem Memory.read_insert (m : Memory) (a b : Nat) (x : Byte) :
    Memory.read (Memory.insert m a x) b = if b = a then x else Memory.read m b := by
  induction m with
  | nil =>
    by_cases h : b = a
    · simp [Memory.insert, Memory.read, h]
    · simp [Memory.insert, Memory.read, h, Ne.symm h]
  | cons c rest ih =>
    obtain ⟨d, v⟩ := c
    by_cases hlt : a < d
    · by_cases h : b = a
      · simp [Memory.insert, Memory.read, hlt, h]
      · simp [Memory.insert, Memory.read, hlt, h, Ne.symm h]
    · by_cases hd : d = a
      · subst hd
        by_cases h : b = d
        · simp [Memory.insert, Memory.read, h]
        · simp [Memory.insert, Memory.read, h, Ne.symm h]
      · by_cases h : d = b
        · subst h; simp [Memory.insert, Memory.read, hlt, hd]
        · simp [Memory.insert, Memory.read, hlt, hd, h, ih]

/-- A read after a write to the same address gives the byte written, and every other address reads as
before (R51). -/
theorem Memory.read_write (m : Memory) (a b : Nat) (x : Byte) :
    Memory.read (Memory.write m a x) b = if b = a then x else Memory.read m b := by
  unfold Memory.write
  split
  · rename_i h; rw [Memory.read_erase, h]
  · rw [Memory.read_insert]

@[simp] theorem Memory.read_write_self (m : Memory) (a : Nat) (x : Byte) :
    Memory.read (Memory.write m a x) a = x := by simp [Memory.read_write]

theorem Memory.read_write_of_ne {a b : Nat} (h : b ≠ a) (m : Memory) (x : Byte) :
    Memory.read (Memory.write m a x) b = Memory.read m b := by simp [Memory.read_write, h]

/-- What an address reads as after bytes were stored from `a` on. -/
theorem Memory.read_writeBytes (m : Memory) (a b : Nat) (bytes : List Byte) :
    Memory.read (Memory.writeBytes m a bytes) b =
      if a ≤ b then (bytes[b - a]?).getD (Memory.read m b) else Memory.read m b := by
  induction bytes generalizing m a with
  | nil => simp [Memory.writeBytes]
  | cons x rest ih =>
    rw [Memory.writeBytes, ih, Memory.read_write]
    by_cases h : b = a
    · subst h; simp
    · by_cases hle : a ≤ b
      · have h1 : a + 1 ≤ b := by omega
        have h2 : b - a = (b - (a + 1)) + 1 := by omega
        simp [h, h1, hle, h2]
      · have h1 : ¬ a + 1 ≤ b := by omega
        simp [h, h1, hle]

/-- A stored byte reads back. -/
theorem Memory.read_writeBytes_of_lt (m : Memory) (a k : Nat) (bytes : List Byte)
    (h : k < bytes.length) : Memory.read (Memory.writeBytes m a bytes) (a + k) = bytes[k] := by
  simp [Memory.read_writeBytes, h]

/-- An address outside the stored bytes reads as before. -/
theorem Memory.read_writeBytes_outside (m : Memory) (a b : Nat) (bytes : List Byte)
    (h : b < a ∨ a + bytes.length ≤ b) :
    Memory.read (Memory.writeBytes m a bytes) b = Memory.read m b := by
  rw [Memory.read_writeBytes]
  split
  · rw [List.getElem?_eq_none (by omega)]; rfl
  · rfl

@[simp] theorem Memory.length_readBytes (m : Memory) (a n : Nat) :
    (Memory.readBytes m a n).length = n := by
  induction n generalizing a with
  | zero => rfl
  | succ n ih => simp [Memory.readBytes, ih]

theorem Memory.getElem_readBytes (m : Memory) (a n k : Nat)
    (h : k < (Memory.readBytes m a n).length) :
    (Memory.readBytes m a n)[k] = Memory.read m (a + k) := by
  induction n generalizing a k with
  | zero => simp at h
  | succ n ih =>
    cases k with
    | zero => simp [Memory.readBytes]
    | succ k =>
      simp only [Memory.readBytes, List.getElem_cons_succ]
      rw [ih]
      congr 1; omega

theorem Memory.getElem?_readBytes (m : Memory) (a n k : Nat) :
    (Memory.readBytes m a n)[k]? = if k < n then some (Memory.read m (a + k)) else none := by
  split
  · rename_i h
    rw [List.getElem?_eq_getElem (by simpa using h), Memory.getElem_readBytes]
  · rename_i h
    exact List.getElem?_eq_none (by simpa using h)

/-! ### The canonical form -/

theorem Memory.wf_cons {a : Nat} {x : Byte} {m : Memory} :
    Memory.wf ((a, x) :: m) = true ↔
      a < Config.memSize ∧ x ≠ resetByte a ∧ (∀ c ∈ m, a < c.1) ∧ Memory.wf m = true := by
  simp [Memory.wf, and_assoc]

theorem Memory.mem_erase {m : Memory} {a : Nat} {c : Host.Cell} (h : c ∈ Memory.erase m a) :
    c ∈ m := by
  induction m with
  | nil => simp [Memory.erase] at h
  | cons d rest ih =>
    simp only [Memory.erase] at h
    split at h
    · exact List.mem_cons_of_mem _ (ih h)
    · rcases List.mem_cons.1 h with h | h
      · exact h ▸ List.mem_cons_self
      · exact List.mem_cons_of_mem _ (ih h)

theorem Memory.mem_insert {m : Memory} {a : Nat} {x : Byte} {c : Host.Cell}
    (h : c ∈ Memory.insert m a x) : c = (a, x) ∨ c ∈ m := by
  induction m with
  | nil => exact .inl (by simpa [Memory.insert] using h)
  | cons d rest ih =>
    simp only [Memory.insert] at h
    split at h
    · simpa using h
    · split at h
      · rcases List.mem_cons.1 h with h | h
        · exact .inl h
        · exact .inr (List.mem_cons_of_mem _ h)
      · rcases List.mem_cons.1 h with h | h
        · exact .inr (h ▸ List.mem_cons_self)
        · rcases ih h with h | h
          · exact .inl h
          · exact .inr (List.mem_cons_of_mem _ h)

theorem Memory.wf_erase {m : Memory} (h : Memory.wf m = true) (a : Nat) :
    Memory.wf (Memory.erase m a) = true := by
  induction m with
  | nil => rfl
  | cons d rest ih =>
    obtain ⟨b, v⟩ := d
    obtain ⟨h1, h2, h3, h4⟩ := Memory.wf_cons.1 h
    simp only [Memory.erase]
    split
    · exact ih h4
    · exact Memory.wf_cons.2 ⟨h1, h2, fun c hc => h3 c (Memory.mem_erase hc), ih h4⟩

theorem Memory.wf_insert {m : Memory} (h : Memory.wf m = true) {a : Nat} {x : Byte}
    (ha : a < Config.memSize) (hx : x ≠ resetByte a) :
    Memory.wf (Memory.insert m a x) = true := by
  induction m with
  | nil => exact Memory.wf_cons.2 ⟨ha, hx, by simp, rfl⟩
  | cons d rest ih =>
    obtain ⟨b, v⟩ := d
    obtain ⟨h1, h2, h3, h4⟩ := Memory.wf_cons.1 h
    simp only [Memory.insert]
    split
    · rename_i hlt
      refine Memory.wf_cons.2 ⟨ha, hx, ?_, h⟩
      intro c hc
      rcases List.mem_cons.1 hc with hc | hc
      · exact hc ▸ hlt
      · exact hlt.trans (h3 c hc)
    · split
      · rename_i hb
        subst hb
        exact Memory.wf_cons.2 ⟨ha, hx, h3, h4⟩
      · refine Memory.wf_cons.2 ⟨h1, h2, ?_, ih h4⟩
        intro c hc
        rcases Memory.mem_insert hc with hc | hc
        · subst hc; show b < a; omega
        · exact h3 c hc

/-- A write to an address of memory keeps the canonical form. -/
theorem Memory.wf_write {m : Memory} (h : Memory.wf m = true) {a : Nat}
    (ha : a < Config.memSize) (x : Byte) : Memory.wf (Memory.write m a x) = true := by
  unfold Memory.write
  split
  · exact Memory.wf_erase h a
  · rename_i hx; exact Memory.wf_insert h ha hx

/-- Storing bytes that all lie in memory keeps the canonical form. -/
theorem Memory.wf_writeBytes {m : Memory} (h : Memory.wf m = true) {a : Nat} {bytes : List Byte}
    (ha : a + bytes.length ≤ Config.memSize) :
    Memory.wf (Memory.writeBytes m a bytes) = true := by
  induction bytes generalizing m a with
  | nil => exact h
  | cons x rest ih =>
    simp only [List.length_cons] at ha
    exact ih (Memory.wf_write h (by omega) x) (by omega)

/-- Placing a word for the fetch keeps the canonical form. -/
theorem Memory.wf_storeWord {m : Memory} (h : Memory.wf m = true) (a : Nat) (w : Word) :
    Memory.wf (Memory.storeWord m a w) = true := by
  unfold Memory.storeWord
  split
  · rename_i ha; exact Memory.wf_writeBytes h ha
  · split
    · rename_i ha; exact Memory.wf_write h ha _
    · exact h

theorem Memory.wf_filterMap (f : Nat → Byte) (l : List Nat) (hl : l.Pairwise (· < ·))
    (hb : ∀ a ∈ l, a < Config.memSize) :
    Memory.wf (l.filterMap fun a => if f a = resetByte a then none else some (a, f a)) = true := by
  induction l with
  | nil => rfl
  | cons a rest ih =>
    obtain ⟨h1, h2⟩ := List.pairwise_cons.1 hl
    have ih := ih h2 fun b hb' => hb b (List.mem_cons_of_mem _ hb')
    by_cases hx : f a = resetByte a
    · simpa [List.filterMap_cons, hx] using ih
    · rw [List.filterMap_cons, if_neg hx]
      refine Memory.wf_cons.2 ⟨hb a List.mem_cons_self, hx, ?_, ih⟩
      intro c hc
      obtain ⟨b, hb1, hb2⟩ := List.mem_filterMap.1 hc
      split at hb2
      · cases hb2
      · obtain rfl := Option.some.inj hb2
        exact h1 b hb1

/-- The memory built from its bytes is canonical. -/
theorem Memory.wf_ofBytes (f : Nat → Byte) : Memory.wf (Memory.ofBytes f) = true :=
  Memory.wf_filterMap f _ List.pairwise_lt_range fun _ ha => List.mem_range.1 ha

/-! ### Equal memories are equal data -/

theorem Memory.read_of_forall_lt {m : Memory} {a : Nat} (h : ∀ c ∈ m, a < c.1) :
    Memory.read m a = resetByte a := by
  induction m with
  | nil => rfl
  | cons c rest ih =>
    obtain ⟨b, v⟩ := c
    have hb : b ≠ a := Nat.ne_of_gt (h (b, v) List.mem_cons_self)
    simp [Memory.read, hb, ih fun c hc => h c (List.mem_cons_of_mem _ hc)]

/-- Two canonical memories whose every address reads alike are the same list. -/
theorem Memory.ext_of_wf {m n : Memory} (hm : Memory.wf m = true) (hn : Memory.wf n = true)
    (h : ∀ a, Memory.read m a = Memory.read n a) : m = n := by
  induction m generalizing n with
  | nil =>
    cases n with
    | nil => rfl
    | cons d rest =>
      obtain ⟨b, v⟩ := d
      obtain ⟨-, h2, -, -⟩ := Memory.wf_cons.1 hn
      exact absurd (by simpa [Memory.read] using (h b).symm) h2
  | cons c m' ih =>
    obtain ⟨a, x⟩ := c
    obtain ⟨-, ha2, ha3, ha4⟩ := Memory.wf_cons.1 hm
    cases n with
    | nil => exact absurd (by simpa [Memory.read] using h a) ha2
    | cons d n' =>
      obtain ⟨b, y⟩ := d
      obtain ⟨-, hb2, hb3, hb4⟩ := Memory.wf_cons.1 hn
      have hab : a = b := by
        rcases Nat.lt_trichotomy a b with hlt | heq | hgt
        · have h1 := h a
          rw [Memory.read_of_forall_lt (m := (b, y) :: n') (by
            intro c hc
            rcases List.mem_cons.1 hc with hc | hc
            · exact hc ▸ hlt
            · exact hlt.trans (hb3 c hc))] at h1
          exact absurd (by simpa [Memory.read] using h1) ha2
        · exact heq
        · have h1 := h b
          rw [Memory.read_of_forall_lt (m := (a, x) :: m') (by
            intro c hc
            rcases List.mem_cons.1 hc with hc | hc
            · exact hc ▸ hgt
            · exact hgt.trans (ha3 c hc))] at h1
          exact absurd (by simpa [Memory.read] using h1.symm) hb2
      subst hab
      have hxy : x = y := by simpa [Memory.read] using h a
      subst hxy
      rw [ih ha4 hb4]
      intro b
      by_cases hb : a = b
      · subst hb
        rw [Memory.read_of_forall_lt ha3, Memory.read_of_forall_lt hb3]
      · simpa [Memory.read, hb] using h b

end Sys2Proof.Machine
end

