-- ==== Sys2Proof/Laws/Ops.lean ====
section
/-! SUPPORT. One lemma for each shared operation that says what it can do: the checks, push and pop, the
block load, the fetch, raising an error, finishing a step. -/

namespace Sys2Proof.Machine

variable (s : State)

/-! ### The checks of an access -/

theorem readCheck_eq_none {a : Nat} : readCheck a = none ↔ a < 4096 := by
  simp [readCheck, Config.memSize]

theorem writeCheck_eq_none {a : Nat} : writeCheck a = none ↔ 0x1FF < a ∧ a < 4096 := by
  unfold writeCheck
  simp only [Config.memSize, Config.reservedHi]
  split
  · simp; omega
  · split <;> simp <;> omega

theorem firstFailing_eq_none {check : Nat → Option ErrorCause} {base n : Nat} :
    firstFailing check base n = none ↔ ∀ k, k < n → check (base + k) = none := by
  simp [firstFailing]

theorem firstFailing_succ (check : Nat → Option ErrorCause) (base n : Nat) :
    firstFailing check base (n + 1) = (firstFailing check base n).or (check (base + n)) := by
  simp only [firstFailing, List.range_succ, List.findSome?_append, List.findSome?_singleton]

/-- The reads pass exactly when every address is in memory. -/
theorem firstFailing_readCheck_none {base n : Nat} :
    firstFailing readCheck base n = none ↔ n = 0 ∨ base + n ≤ 4096 := by
  simp only [firstFailing_eq_none, readCheck_eq_none]
  constructor
  · intro h
    by_cases hn : n = 0
    · exact .inl hn
    · have := h (n - 1) (by omega); exact .inr (by omega)
  · intro h k hk
    omega

/-- Otherwise the first failing address is the first of 4096 or more (R46, R47). -/
theorem firstFailing_readCheck_some {base n : Nat} (h0 : n ≠ 0) (h : 4096 < base + n) :
    firstFailing readCheck base n = some (.addressOutOfRange (max base 4096)) := by
  induction n with
  | zero => exact absurd rfl h0
  | succ n ih =>
    rw [firstFailing_succ]
    by_cases hn : n ≠ 0 ∧ 4096 < base + n
    · rw [ih hn.1 hn.2]; rfl
    · have h1 : firstFailing readCheck base n = none :=
        firstFailing_readCheck_none.2 (by omega)
      have h2 : readCheck (base + n) = some (.addressOutOfRange (base + n)) := by
        simp only [readCheck, Config.memSize]; rw [if_pos (by omega)]
      rw [h1, h2]
      have : base + n = max base 4096 := by omega
      simp [this]

/-- The writes pass exactly when every address is in memory and above the reserved area. -/
theorem firstFailing_writeCheck_none {base n : Nat} (h0 : n ≠ 0) :
    firstFailing writeCheck base n = none ↔ 0x1FF < base ∧ base + n ≤ 4096 := by
  simp only [firstFailing_eq_none, writeCheck_eq_none]
  constructor
  · intro h
    have h1 := h 0 (by omega)
    have h2 := h (n - 1) (by omega)
    omega
  · intro h k hk
    omega

/-- A write that starts in the reserved area fails at its first address (R48, R49). -/
theorem firstFailing_writeCheck_reserved {base n : Nat} (h0 : n ≠ 0) (h : base ≤ 0x1FF) :
    firstFailing writeCheck base n = some (.reservedWrite base) := by
  induction n with
  | zero => exact absurd rfl h0
  | succ n ih =>
    rw [firstFailing_succ]
    by_cases hn : n = 0
    · subst hn
      have h2 : writeCheck base = some (.reservedWrite base) := by
        simp only [writeCheck, Config.memSize, Config.reservedHi]
        rw [if_neg (by omega), if_pos h]
      simp [firstFailing, h2]
    · rw [ih hn]; rfl

/-- A write above the reserved area that leaves memory fails at the first address of 4096 or more. -/
theorem firstFailing_writeCheck_out {base n : Nat} (h0 : n ≠ 0) (hb : 0x1FF < base)
    (h : 4096 < base + n) :
    firstFailing writeCheck base n = some (.addressOutOfRange (max base 4096)) := by
  induction n with
  | zero => exact absurd rfl h0
  | succ n ih =>
    rw [firstFailing_succ]
    by_cases hn : n ≠ 0 ∧ 4096 < base + n
    · rw [ih hn.1 hn.2]; rfl
    · have h1 : firstFailing writeCheck base n = none := by
        by_cases hn0 : n = 0
        · subst hn0; rfl
        · exact (firstFailing_writeCheck_none hn0).2 ⟨hb, by omega⟩
      have h2 : writeCheck (base + n) = some (.addressOutOfRange (base + n)) := by
        simp only [writeCheck, Config.memSize]; rw [if_pos (by omega)]
      rw [h1, h2]
      have : base + n = max base 4096 := by omega
      simp [this]

/-! ### Raising an error -/

/-- A raise is a fault that records the instruction's address and word (R150). -/
theorem raise_eq (c : ErrorCause) (i : Instr) :
    raise c i s = .fault (c.toFault s.instrAddr (encode i)) := rfl

@[simp] theorem ErrorCause.toFault_pc0 (c : ErrorCause) (pc0 w : Word) :
    (c.toFault pc0 w).pc0 = some pc0 := by cases c <;> rfl

@[simp] theorem ErrorCause.toFault_word (c : ErrorCause) (pc0 w : Word) :
    (c.toFault pc0 w).word = some w := by cases c <;> rfl

/-! ### The stack -/

/-- A push fails exactly when SP = 16; otherwise it fills the slot at SP and moves SP past it (R22). -/
theorem State.push_eq_some {w : Word} {t : State} (h : s.push w = some t) :
    ∃ hs : s.sp.val < 16,
      t = { s with stack := s.stack.set s.sp.val w, sp := ⟨s.sp.val + 1, by omega⟩ } := by
  unfold State.push at h
  split at h
  · rename_i hs; exact ⟨hs, (Option.some.inj h).symm⟩
  · cases h

theorem State.push_eq_none {w : Word} : s.push w = none ↔ s.sp.val = 16 := by
  have := s.sp.isLt
  unfold State.push
  split <;> simp <;> omega

/-- A pop fails exactly when SP = 0; otherwise it gives the slot below SP and moves SP to it (R22). -/
theorem State.pop_eq_some {w : Word} {t : State} (h : s.pop = some (w, t)) :
    ∃ _ : 0 < s.sp.val,
      w = s.stack[s.sp.val - 1] ∧ t = { s with sp := ⟨s.sp.val - 1, by omega⟩ } := by
  unfold State.pop at h
  split at h
  · rename_i hs
    obtain ⟨h1, h2⟩ := Prod.mk.inj (Option.some.inj h)
    exact ⟨hs, h1.symm, h2.symm⟩
  · cases h

theorem State.pop_eq_none : s.pop = none ↔ s.sp.val = 0 := by
  unfold State.pop
  split <;> simp <;> omega

/-! ### Registers in blocks -/

theorem getElem_loadRegs (v : Vector Byte 16) (first k : Nat) (bytes : List Byte) (hk : k < 16) :
    (loadRegs v first bytes)[k] =
      if first ≤ k then (bytes[k - first]?).getD v[k] else v[k] := by
  induction bytes generalizing v first with
  | nil => simp [loadRegs]
  | cons b rest ih =>
    rw [loadRegs, ih]
    by_cases h : first = k
    · subst h; simp
    · by_cases hle : first ≤ k
      · have h1 : first + 1 ≤ k := by omega
        have h2 : k - first = (k - (first + 1)) + 1 := by omega
        simp [h, h1, hle, h2]
      · have h1 : ¬ first + 1 ≤ k := by omega
        simp [h, h1, hle]

@[simp] theorem State.length_regsUpTo (x : Reg) : (s.regsUpTo x).length = x.val + 1 := by
  simp [State.regsUpTo]

theorem State.getElem_regsUpTo (x : Reg) (k : Nat) (h : k < (s.regsUpTo x).length) :
    (s.regsUpTo x)[k] = s.getV ⟨k, by simp at h; omega⟩ := by
  simp [State.regsUpTo, State.getV]

@[simp] theorem length_bcdDigits (b : Byte) : (bcdDigits b).length = 3 := rfl

@[simp] theorem mem_regsThrough {x r : Reg} : Piece.v r ∈ regsThrough x ↔ r ≤ x := by
  simp [regsThrough]

/-! ### Fetch, tick and the end of a step -/

/-- The fetch succeeds exactly when both bytes are in memory (R82). -/
theorem State.fetch_ok (h : s.pc.toNat + 1 < 4096) :
    s.fetch = .ok (joinBytes (s.readByte s.pc.toNat) (s.readByte (s.pc.toNat + 1))) := by
  have h1 : readCheck s.pc.toNat = none := readCheck_eq_none.2 (by omega)
  have h2 : readCheck (s.pc.toNat + 1) = none := readCheck_eq_none.2 h
  simp [State.fetch, State.memRead, h1, h2, State.readByte]

/-- The fetch fails at PC when PC is 4096 or more, else at PC + 1 (R82, R156). -/
theorem State.fetch_error (h : 4096 ≤ s.pc.toNat + 1) :
    s.fetch = .error (.addressOutOfRange s.pc none (max s.pc.toNat 4096)) := by
  by_cases h1 : 4096 ≤ s.pc.toNat
  · have h2 : readCheck s.pc.toNat = some (.addressOutOfRange s.pc.toNat) := by
      simp [readCheck, Config.memSize, h1]
    have h3 : max s.pc.toNat 4096 = s.pc.toNat := by omega
    simp [State.fetch, State.memRead, h2, h3]
  · have h2 : readCheck s.pc.toNat = none := readCheck_eq_none.2 (by omega)
    have h3 : readCheck (s.pc.toNat + 1) = some (.addressOutOfRange (s.pc.toNat + 1)) := by
      simp [readCheck, Config.memSize, h]
    have h4 : max s.pc.toNat 4096 = s.pc.toNat + 1 := by omega
    simp [State.fetch, State.memRead, h2, h3, h4]

theorem toNat_joinBytes (hi lo : Byte) : (joinBytes hi lo).toNat = hi.toNat * 256 + lo.toNat := by
  have := lo.isLt
  simp only [joinBytes, BitVec.toNat_append, Nat.shiftLeft_eq]
  rw [← Nat.shiftLeft_eq, Nat.shiftLeft_add_eq_or_of_lt this]

/-- A countdown register after one tick: one less, and 0 stays 0 (R24). -/
theorem toNat_countDown (t : Byte) : (countDown t).toNat = t.toNat - 1 := by
  unfold countDown
  split
  · rename_i h; rw [BitVec.toNat_sub]; have := t.isLt; simp; omega
  · omega

theorem finishStep_eq_next {o : Host.Outcome State Fault Refusal} {t : State}
    (h : finishStep o = .next t) : ∃ u, o = .next u ∧ t = u.tick.nextDraw := by
  cases o with
  | next u => exact ⟨u, rfl, by simpa [finishStep] using h.symm⟩
  | fault e => cases h
  | refused r => cases h

/-- What a completed step did: it was permitted, the word was fetched, its handler ran on the advanced
state and returned, and the timers ticked (R86). -/
theorem step_eq_next {t : State} (h : step s = .next t) :
    s.status = .ready ∧ ∃ w u, s.fetch = .ok w ∧ dispatchWord w s.advance = .next u ∧
      t = u.tick.nextDraw := by
  unfold step at h
  split at h
  · rename_i hs
    split at h
    · cases h
    · rename_i w hw
      obtain ⟨u, hu, rfl⟩ := finishStep_eq_next h
      exact ⟨hs, w, u, hw, hu, rfl⟩
  · cases h
  · cases h

/-- A Ready machine's step, once the word is fetched. -/
theorem step_of_fetch {w : Word} (hs : s.status = .ready) (hw : s.fetch = .ok w) :
    step s = finishStep (dispatchWord w s.advance) := by
  simp [step, hs, hw]

theorem dispatchWord_instr {w : Word} {i : Instr} (h : decodeWord w = .instr i) (s : State) :
    dispatchWord w s = exec i s := by simp [dispatchWord, h]

theorem dispatchWord_unassigned {w v : Word} (h : decodeWord w = .unassigned v) (s : State) :
    dispatchWord w s = .next s := by simp [dispatchWord, h, execUnassigned]

/-- A run goes on from the state a completed step leaves. -/
theorem core_run_succ_of_next {s t : State} (h : step s = .next t) (n : Nat) :
    Host.Core.run core (n + 1) s = Host.Core.run core n t := by
  have h' : core.step s = .next t := h
  simp only [Host.Core.run]
  rw [h']

/-! ### Keys -/

theorem State.firstKey_eq_some {k : Nat} :
    s.firstKey = some k ↔ k < 16 ∧ s.keyDown k = true ∧ ∀ j, j < k → s.keyDown j = false := by
  simp only [State.firstKey, Config.numKeys, List.find?_range_eq_some]
  constructor
  · rintro ⟨h1, h2, h3⟩; exact ⟨List.mem_range.1 h2, h1, fun j hj => by simpa using h3 j hj⟩
  · rintro ⟨h1, h2, h3⟩; exact ⟨h2, List.mem_range.2 h1, fun j hj => by simpa using h3 j hj⟩

theorem State.firstKey_eq_none :
    s.firstKey = none ↔ ∀ k, k < 16 → s.keyDown k = false := by
  simp [State.firstKey, Config.numKeys]

end Sys2Proof.Machine
end

