-- ==== Sys2Proof/Laws/Display.lean ====
section
/-! SUPPORT. What drawing does to one pixel and to the collision flag: the loops of R136 against a
statement about every pixel at once. -/

namespace Sys2Proof.Machine

/-- The pixel at coordinates of the grid. -/
theorem pixel_of_onGrid (fb : Framebuffer) {px py : Nat} (hx : px < 64) (hy : py < 32) :
    pixel fb px py = some fb[py][px] := by
  simp [pixel, hx, hy]

/-- There is no pixel off the grid. -/
theorem pixel_offGrid (fb : Framebuffer) {px py : Nat} (h : ¬ pixelOnGrid px py) :
    pixel fb px py = none := by
  by_cases hy : py < 32
  · have hx : ¬ px < 64 := fun hx => h ⟨hx, hy⟩
    simp [pixel, hy, hx]
  · simp [pixel, hy]

/-- Two framebuffers with the same pixels are the same. -/
theorem framebuffer_ext {f g : Framebuffer}
    (h : ∀ px py, px < 64 → py < 32 → pixel f px py = pixel g px py) : f = g := by
  apply Vector.ext
  intro py hy
  apply Vector.ext
  intro px hx
  have := h px py hx hy
  rw [pixel_of_onGrid f hx hy, pixel_of_onGrid g hx hy] at this
  exact Option.some.inj this

theorem pixel_clearFramebuffer {px py : Nat} (hx : px < 64) (hy : py < 32) :
    pixel clearFramebuffer px py = some false := by
  rw [pixel_of_onGrid _ hx hy]; simp [clearFramebuffer]

/-- One drawn pixel: it alone is XORed with 1. -/
theorem pixel_drawPixel (qx qy px py : Nat) (acc : Framebuffer × Bool) :
    pixel (drawPixel qx qy acc).1 px py =
      (pixel acc.1 px py).map (fun b => b ^^ decide (qx = px ∧ qy = py)) := by
  by_cases hon : pixelOnGrid px py
  · obtain ⟨hx, hy⟩ := hon
    rw [pixel_of_onGrid _ hx hy, pixel_of_onGrid _ hx hy]
    unfold drawPixel
    split
    · by_cases h1 : qy = py
      · subst h1
        by_cases h2 : qx = px
        · subst h2; simp
        · simp [h2]
      · simp [h1]
    · rename_i hoff
      have : ¬ (qx = px ∧ qy = py) := fun h => hoff ⟨h.1 ▸ hx, h.2 ▸ hy⟩
      simp [this]
  · rw [pixel_offGrid _ hon, pixel_offGrid _ hon]; rfl

/-- The flag after one drawn pixel: set if it was, or if the pixel was 1. -/
theorem flag_drawPixel (qx qy : Nat) (acc : Framebuffer × Bool) :
    (drawPixel qx qy acc).2 = (acc.2 || pixel acc.1 qx qy == some true) := by
  unfold drawPixel
  split
  · rename_i h
    rw [pixel_of_onGrid _ h.1 h.2]; cases acc.1[qy][qx] <;> rfl
  · rename_i h
    rw [pixel_offGrid _ h]; simp

/-- The columns `0 .. k - 1` of a row. -/
def rowCovers (x0 : Nat) (row : Byte) (k px : Nat) : Bool :=
  decide (x0 ≤ px ∧ px < x0 + k) && spriteBit row (px - x0)

theorem drawRow_prefix (x0 py : Nat) (row : Byte) (acc : Framebuffer × Bool) (k : Nat) :
    let r := (List.range k).foldl
      (fun acc c => if spriteBit row c then drawPixel (x0 + c) py acc else acc) acc
    (∀ px qy, pixel r.1 px qy =
      (pixel acc.1 px qy).map (fun b => b ^^ (decide (py = qy) && rowCovers x0 row k px))) ∧
    (r.2 = true ↔ acc.2 = true ∨
      ∃ px, rowCovers x0 row k px = true ∧ pixel acc.1 px py = some true) := by
  induction k with
  | zero =>
    have h0 : ∀ px, rowCovers x0 row 0 px = false := fun px => by
      have : ¬ (x0 ≤ px ∧ px < x0 + 0) := by omega
      unfold rowCovers; rw [decide_eq_false this]; rfl
    simp [h0]
  | succ k ih =>
    obtain ⟨ih1, ih2⟩ := ih
    simp only [List.range_succ, List.foldl_append, List.foldl_cons, List.foldl_nil]
    generalize (List.range k).foldl
      (fun acc c => if spriteBit row c then drawPixel (x0 + c) py acc else acc) acc = r at ih1 ih2
    have hcov : ∀ px, rowCovers x0 row (k + 1) px =
        (rowCovers x0 row k px ^^ (decide (x0 + k = px) && spriteBit row k)) := by
      intro px
      unfold rowCovers
      by_cases h1 : x0 + k = px
      · have h2 : px - x0 = k := by omega
        have h4 : x0 ≤ px ∧ px < x0 + (k + 1) := by omega
        simp [h1, h2, h4]
      · have h2 : (px < x0 + (k + 1)) ↔ px < x0 + k := by omega
        simp [h1, h2]
    by_cases hb : spriteBit row k = true
    · simp only [hb, if_true]
      refine ⟨?_, ?_⟩
      · intro px qy
        rw [pixel_drawPixel, ih1, hcov, hb]
        cases pixel acc.1 px qy with
        | none => rfl
        | some b =>
          by_cases h1 : py = qy <;> by_cases h2 : x0 + k = px <;>
            cases b <;> cases rowCovers x0 row k px <;> simp [h1, h2]
      · rw [flag_drawPixel, Bool.or_eq_true, ih2, or_assoc]
        refine or_congr_right ?_
        have hnot : rowCovers x0 row k (x0 + k) = false := by simp [rowCovers]
        have hpix : pixel r.1 (x0 + k) py = pixel acc.1 (x0 + k) py := by
          rw [ih1, hnot]; cases pixel acc.1 (x0 + k) py <;> simp
        rw [hpix]
        constructor
        · rintro (⟨px, h1, h2⟩ | h)
          · refine ⟨px, ?_, h2⟩
            have h3 : x0 + k ≠ px := by rintro rfl; rw [hnot] at h1; cases h1
            rw [hcov, h1]; simp [h3]
          · refine ⟨x0 + k, ?_, by simpa using h⟩
            rw [hcov, hnot, hb]; simp
        · rintro ⟨px, h1, h2⟩
          by_cases h3 : x0 + k = px
          · subst h3; exact .inr (by simpa using h2)
          · refine .inl ⟨px, ?_, h2⟩
            rw [hcov] at h1; simpa [h3] using h1
    · have hb : spriteBit row k = false := by simpa using hb
      have hcov' : ∀ px, rowCovers x0 row (k + 1) px = rowCovers x0 row k px := by
        intro px; rw [hcov, hb]; simp
      simp only [hb, Bool.false_eq_true, if_false, hcov']
      exact ⟨ih1, ih2⟩

/-- One row drawn: the pixels it covers, in its screen row, are XORed with 1, and the flag is set if it
was or if one of them was 1. -/
theorem drawRow_spec (x0 py : Nat) (row : Byte) (acc : Framebuffer × Bool) :
    (∀ px qy, pixel (drawRow x0 py row acc).1 px qy =
      (pixel acc.1 px qy).map (fun b => b ^^ (decide (py = qy) && rowCovers x0 row 8 px))) ∧
    ((drawRow x0 py row acc).2 = true ↔ acc.2 = true ∨
      ∃ px, rowCovers x0 row 8 px = true ∧ pixel acc.1 px py = some true) :=
  drawRow_prefix x0 py row acc 8

/-- The rows of a sprite cover the pixel. -/
def rowsCover (x0 y0 : Nat) (rows : List Byte) (px py : Nat) : Bool :=
  decide (y0 ≤ py) && ((rows[py - y0]?).map fun row => rowCovers x0 row 8 px).getD false

theorem rowsCover_cons (x0 y0 : Nat) (row : Byte) (rest : List Byte) (px py : Nat) :
    rowsCover x0 y0 (row :: rest) px py =
      ((decide (y0 = py) && rowCovers x0 row 8 px) ^^ rowsCover x0 (y0 + 1) rest px py) := by
  unfold rowsCover
  by_cases h : y0 = py
  · subst h; simp
  · by_cases hle : y0 ≤ py
    · have h1 : y0 + 1 ≤ py := by omega
      have h2 : py - y0 = (py - (y0 + 1)) + 1 := by omega
      simp [h, hle, h1, h2]
    · have h1 : ¬ y0 + 1 ≤ py := by omega
      simp [h, hle, h1]

/-- A sprite drawn: every pixel it covers is XORed with 1, no other changes, and the flag is set if it was
or if a covered pixel was 1 (R136). -/
theorem drawRows_spec (x0 y0 : Nat) (rows : List Byte) (acc : Framebuffer × Bool) :
    (∀ px py, pixel (drawRows x0 y0 rows acc).1 px py =
      (pixel acc.1 px py).map (fun b => b ^^ rowsCover x0 y0 rows px py)) ∧
    ((drawRows x0 y0 rows acc).2 = true ↔ acc.2 = true ∨
      ∃ px py, rowsCover x0 y0 rows px py = true ∧ pixel acc.1 px py = some true) := by
  induction rows generalizing y0 acc with
  | nil => simp [drawRows, rowsCover]
  | cons row rest ih =>
    obtain ⟨r1, r2⟩ := drawRow_spec x0 y0 row acc
    obtain ⟨h1, h2⟩ := ih (y0 + 1) (drawRow x0 y0 row acc)
    refine ⟨?_, ?_⟩
    · intro px py
      rw [drawRows, h1, r1, rowsCover_cons]
      cases pixel acc.1 px py <;> simp
    · rw [drawRows, h2, r2, or_assoc]
      refine or_congr_right ?_
      have hlow : ∀ px py, rowsCover x0 (y0 + 1) rest px py = true → y0 ≠ py := by
        intro px py h hp
        subst hp
        simp [rowsCover] at h
      constructor
      · rintro (⟨px, a, b⟩ | ⟨px, py, a, b⟩)
        · refine ⟨px, y0, ?_, b⟩
          rw [rowsCover_cons]; simp [a, rowsCover]
        · have hne := hlow px py a
          refine ⟨px, py, ?_, ?_⟩
          · rw [rowsCover_cons, a]; simp [hne]
          · rw [r1] at b
            cases hp : pixel acc.1 px py <;> simp_all
      · rintro ⟨px, py, a, b⟩
        rw [rowsCover_cons] at a
        by_cases hne : y0 = py
        · subst hne
          refine .inl ⟨px, ?_, b⟩
          have : rowsCover x0 (y0 + 1) rest px y0 = false := by simp [rowsCover]
          simpa [this] using a
        · refine .inr ⟨px, py, by simpa [hne] using a, ?_⟩
          rw [r1, b]; simp [hne]

/-- The rows read from memory cover exactly the pixels that `spriteCovers` names. -/
theorem rowsCover_readBytes (s : State) (x y : Reg) (n : Nibble) (px py : Nat) :
    rowsCover (s.getV x).toNat (s.getV y).toNat (Memory.readBytes s.mem s.i.toNat n.toNat) px py =
      true ↔ spriteCovers s x y n px py := by
  unfold rowsCover spriteCovers rowCovers spriteBit State.readByte
  rw [Memory.getElem?_readBytes]
  by_cases h : (s.getV y).toNat ≤ py
  · by_cases hn : py - (s.getV y).toNat < n.toNat
    · have h2 : py < (s.getV y).toNat + n.toNat := by omega
      simp [h, hn, h2, and_assoc]
    · have h2 : ¬ py < (s.getV y).toNat + n.toNat := by omega
      simp [h, hn, h2]
  · simp [h]

end Sys2Proof.Machine
end

