-- ==== Sys2Proof/Laws/Frame.lean ====
section
/-! SUPPORT. The frame of each shared update: what it changes, said once; frames weaken and compose. -/

namespace Sys2Proof.Machine

variable (s : State)

theorem Frame.refl (may : List Piece) (stored : List Nat) : Frame may stored s s where
  v _ _ := rfl
  i _ := rfl
  pc _ := rfl
  stack _ := ⟨rfl, rfl⟩
  dt _ := rfl
  st _ := rfl
  fb _ := rfl
  dirty _ := rfl
  mem _ _ := rfl
  key := rfl
  status := rfl
  drawCount := rfl

/-- What may change may be widened. -/
theorem Frame.mono {may may' : List Piece} {stored stored' : List Nat} {s t : State}
    (h : Frame may stored s t) (hm : ∀ p ∈ may, p ∈ may') (hs : ∀ a ∈ stored, a ∈ stored') :
    Frame may' stored' s t where
  v x hx := h.v x fun hp => hx (hm _ hp)
  i hp := h.i fun h => hp (hm _ h)
  pc hp := h.pc fun h => hp (hm _ h)
  stack hp := h.stack fun h => hp (hm _ h)
  dt hp := h.dt fun h => hp (hm _ h)
  st hp := h.st fun h => hp (hm _ h)
  fb hp := h.fb fun h => hp (hm _ h)
  dirty hp := h.dirty fun h => hp (hm _ h)
  mem a ha := h.mem a fun h => ha (hs _ h)
  key := h.key
  status := h.status
  drawCount := h.drawCount

/-- Two changes one after the other stay within what both may change. -/
theorem Frame.trans {may : List Piece} {stored : List Nat} {s t u : State}
    (h : Frame may stored s t) (h' : Frame may stored t u) : Frame may stored s u where
  v x hx := (h'.v x hx).trans (h.v x hx)
  i hp := (h'.i hp).trans (h.i hp)
  pc hp := (h'.pc hp).trans (h.pc hp)
  stack hp := ⟨(h'.stack hp).1.trans (h.stack hp).1, (h'.stack hp).2.trans (h.stack hp).2⟩
  dt hp := (h'.dt hp).trans (h.dt hp)
  st hp := (h'.st hp).trans (h.st hp)
  fb hp := (h'.fb hp).trans (h.fb hp)
  dirty hp := (h'.dirty hp).trans (h.dirty hp)
  mem a ha := (h'.mem a ha).trans (h.mem a ha)
  key := h'.key.trans h.key
  status := h'.status.trans h.status
  drawCount := h'.drawCount.trans h.drawCount

theorem frame_setV (x : Reg) (b : Byte) : Frame [.v x] [] s (s.setV x b) :=
  { Frame.refl s [.v x] [] with
    v := fun y hy => by
      have : x ≠ y := fun h => hy (by simp [h])
      simp [this] }

theorem frame_setResultFlag (x : Reg) (b c : Byte) :
    Frame [.v x, .v regF] [] s (s.setResultFlag x b c) :=
  Frame.trans ((frame_setV s x b).mono (by simp) (by simp))
    ((frame_setV (s.setV x b) regF c).mono (by simp) (by simp))

theorem frame_setPc (w : Word) : Frame [.pc] [] s (s.setPc w) :=
  { Frame.refl s [.pc] [] with pc := fun h => absurd (by simp) h }

theorem frame_setI (w : Word) : Frame [.i] [] s (s.setI w) :=
  { Frame.refl s [.i] [] with i := fun h => absurd (by simp) h }

theorem frame_skipIf (c : Bool) : Frame [.pc] [] s (s.skipIf c) := by
  cases c
  · exact Frame.refl s _ _
  · exact frame_setPc s _

/-- Storing bytes changes memory at their addresses and nothing else. -/
theorem frame_writeBytes (a : Nat) (bytes : List Byte) :
    Frame [] ((List.range bytes.length).map (a + ·)) s
      { s with mem := Memory.writeBytes s.mem a bytes } :=
  { Frame.refl s [] [] with
    mem := fun b hb => by
      refine Memory.read_writeBytes_outside _ _ _ _ ?_
      by_contra h
      exact hb (List.mem_map.2 ⟨b - a, List.mem_range.2 (by omega), by omega⟩) }

end Sys2Proof.Machine
end

