-- ==== Sys2Proof/Laws/PerInstr.lean ====
section
/-! SUPPORT. Statements made per instruction: the word of a well-formed instruction lies in the
instruction's own row of the opcode map (spec/30_encoding.md R71). -/

namespace Sys2Proof.Laws.EncodeInOwnRow

/-- The instruction's word matches the mask and pattern of the row that R71 gives it. -/
def Statement (i : Instr) : Prop :=
  i.wellFormed = true → ∃ r ∈ opcodeMap, r.number = i.tableRow ∧ r.holds (encode i) = true

/-- A row from 2 on holds of a word whose masked bits are its pattern. -/
theorem of_row {i : Instr} {r : OpcodeRow} (hr : opcodeMap[i.tableRow - 1]? = some r)
    (hn : r.number = i.tableRow) (hk : (r.number == 1) = false)
    (h : encode i &&& r.mask = r.pattern) : Statement i := fun _ =>
  ⟨r, List.mem_of_getElem? hr, hn, by
    have hk : r.number ≠ 1 := by simpa using hk
    simp [OpcodeRow.holds, h, hk]⟩

/-- A row that fixes the top nibble alone. -/
theorem of_op {i : Instr} {r : OpcodeRow} (p : Nibble) (hr : opcodeMap[i.tableRow - 1]? = some r)
    (hn : r.number = i.tableRow) (hk : (r.number == 1) = false) (hm : r.mask = 0xF000)
    (hp : r.pattern = packA p 0) (h : fieldOp (encode i) = p) : Statement i :=
  of_row hr hn hk (by rw [hm, hp]; exact (and_maskOp_iff _ p).2 h)

/-- A row that fixes the top and the low nibble. -/
theorem of_opN {i : Instr} {r : OpcodeRow} (p n : Nibble)
    (hr : opcodeMap[i.tableRow - 1]? = some r)
    (hn : r.number = i.tableRow) (hk : (r.number == 1) = false) (hm : r.mask = 0xF00F)
    (hp : r.pattern = packA p (n.setWidth 12)) (h : fieldOp (encode i) = p)
    (h' : fieldN (encode i) = n) : Statement i :=
  of_row hr hn hk (by rw [hm, hp]; exact (and_maskOpN_iff _ p n).2 ⟨h, h'⟩)

/-- A row that fixes the top nibble and the low byte. -/
theorem of_opKk {i : Instr} {r : OpcodeRow} (p : Nibble) (kk : Byte)
    (hr : opcodeMap[i.tableRow - 1]? = some r)
    (hn : r.number = i.tableRow) (hk : (r.number == 1) = false) (hm : r.mask = 0xF0FF)
    (hp : r.pattern = packA p (kk.setWidth 12)) (h : fieldOp (encode i) = p)
    (h' : fieldKk (encode i) = kk) : Statement i :=
  of_row hr hn hk (by rw [hm, hp]; exact (and_maskOpKk_iff _ p kk).2 ⟨h, h'⟩)

theorem sysNnn (nnn : Addr12) : Statement (.sysNnn nnn) := by
  intro hwf
  refine ⟨⟨1, 0xF000, 0x0000⟩, List.mem_cons_self, rfl, ?_⟩
  have h1 : nnn ≠ 0x0E0 ∧ nnn ≠ 0x0EE := by simpa [Instr.wellFormed] using hwf
  have h2 : ∀ v : Addr12, nnn ≠ v → packA 0x0 nnn ≠ packA 0x0 v := fun v hv h =>
    hv (by rw [← fieldNnn_packA 0x0 nnn, h, fieldNnn_packA])
  have h3 : packA 0x0 nnn &&& 0xF000 = 0x0000 := by rw [and_maskOp, fieldOp_packA]; rfl
  have h4 : packA (0x0#4) nnn ≠ 0x00E0#16 := h2 0x0E0 h1.1
  have h5 : packA (0x0#4) nnn ≠ 0x00EE#16 := h2 0x0EE h1.2
  simp only [OpcodeRow.holds, encode, h3]
  simp [h4, h5]

theorem cls : Statement (.cls) := of_row rfl rfl rfl rfl

theorem ret : Statement (.ret) := of_row rfl rfl rfl rfl

theorem jpNnn (nnn : Addr12) : Statement (.jpNnn nnn) :=
  of_op 0x1 rfl rfl rfl rfl rfl (fieldOp_packA _ _)

theorem callNnn (nnn : Addr12) : Statement (.callNnn nnn) :=
  of_op 0x2 rfl rfl rfl rfl rfl (fieldOp_packA _ _)

theorem seVxKk (x : Reg) (kk : Byte) : Statement (.seVxKk x kk) :=
  of_op 0x3 rfl rfl rfl rfl rfl (fieldOp_packXK _ _ _)

theorem sneVxKk (x : Reg) (kk : Byte) : Statement (.sneVxKk x kk) :=
  of_op 0x4 rfl rfl rfl rfl rfl (fieldOp_packXK _ _ _)

theorem seVxVy (x y : Reg) (n : Nibble) : Statement (.seVxVy x y n) :=
  of_op 0x5 rfl rfl rfl rfl rfl (fieldOp_packXY _ _ _ _)

theorem ldVxKk (x : Reg) (kk : Byte) : Statement (.ldVxKk x kk) :=
  of_op 0x6 rfl rfl rfl rfl rfl (fieldOp_packXK _ _ _)

theorem addVxKk (x : Reg) (kk : Byte) : Statement (.addVxKk x kk) :=
  of_op 0x7 rfl rfl rfl rfl rfl (fieldOp_packXK _ _ _)

theorem ldVxVy (x y : Reg) : Statement (.ldVxVy x y) :=
  of_opN 0x8 0x0 rfl rfl rfl rfl rfl (fieldOp_packXY _ _ _ _) (fieldN_packXY _ _ _ _)

theorem orVxVy (x y : Reg) : Statement (.orVxVy x y) :=
  of_opN 0x8 0x1 rfl rfl rfl rfl rfl (fieldOp_packXY _ _ _ _) (fieldN_packXY _ _ _ _)

theorem andVxVy (x y : Reg) : Statement (.andVxVy x y) :=
  of_opN 0x8 0x2 rfl rfl rfl rfl rfl (fieldOp_packXY _ _ _ _) (fieldN_packXY _ _ _ _)

theorem xorVxVy (x y : Reg) : Statement (.xorVxVy x y) :=
  of_opN 0x8 0x3 rfl rfl rfl rfl rfl (fieldOp_packXY _ _ _ _) (fieldN_packXY _ _ _ _)

theorem addVxVy (x y : Reg) : Statement (.addVxVy x y) :=
  of_opN 0x8 0x4 rfl rfl rfl rfl rfl (fieldOp_packXY _ _ _ _) (fieldN_packXY _ _ _ _)

theorem subVxVy (x y : Reg) : Statement (.subVxVy x y) :=
  of_opN 0x8 0x5 rfl rfl rfl rfl rfl (fieldOp_packXY _ _ _ _) (fieldN_packXY _ _ _ _)

theorem shrVxVy (x y : Reg) : Statement (.shrVxVy x y) :=
  of_opN 0x8 0x6 rfl rfl rfl rfl rfl (fieldOp_packXY _ _ _ _) (fieldN_packXY _ _ _ _)

theorem subnVxVy (x y : Reg) : Statement (.subnVxVy x y) :=
  of_opN 0x8 0x7 rfl rfl rfl rfl rfl (fieldOp_packXY _ _ _ _) (fieldN_packXY _ _ _ _)

theorem shlVxVy (x y : Reg) : Statement (.shlVxVy x y) :=
  of_opN 0x8 0xe rfl rfl rfl rfl rfl (fieldOp_packXY _ _ _ _) (fieldN_packXY _ _ _ _)

theorem sneVxVy (x y : Reg) (n : Nibble) : Statement (.sneVxVy x y n) :=
  of_op 0x9 rfl rfl rfl rfl rfl (fieldOp_packXY _ _ _ _)

theorem ldINnn (nnn : Addr12) : Statement (.ldINnn nnn) :=
  of_op 0xa rfl rfl rfl rfl rfl (fieldOp_packA _ _)

theorem jpV0Nnn (nnn : Addr12) : Statement (.jpV0Nnn nnn) :=
  of_op 0xb rfl rfl rfl rfl rfl (fieldOp_packA _ _)

theorem rndVxKk (x : Reg) (kk : Byte) : Statement (.rndVxKk x kk) :=
  of_op 0xc rfl rfl rfl rfl rfl (fieldOp_packXK _ _ _)

theorem drwVxVyN (x y : Reg) (n : Nibble) : Statement (.drwVxVyN x y n) :=
  of_op 0xd rfl rfl rfl rfl rfl (fieldOp_packXY _ _ _ _)

theorem skpVx (x : Reg) : Statement (.skpVx x) :=
  of_opKk 0xe 0x9e rfl rfl rfl rfl rfl (fieldOp_packXK _ _ _) (fieldKk_packXK _ _ _)

theorem sknpVx (x : Reg) : Statement (.sknpVx x) :=
  of_opKk 0xe 0xa1 rfl rfl rfl rfl rfl (fieldOp_packXK _ _ _) (fieldKk_packXK _ _ _)

theorem ldVxDt (x : Reg) : Statement (.ldVxDt x) :=
  of_opKk 0xf 0x7 rfl rfl rfl rfl rfl (fieldOp_packXK _ _ _) (fieldKk_packXK _ _ _)

theorem ldVxK (x : Reg) : Statement (.ldVxK x) :=
  of_opKk 0xf 0xa rfl rfl rfl rfl rfl (fieldOp_packXK _ _ _) (fieldKk_packXK _ _ _)

theorem ldDtVx (x : Reg) : Statement (.ldDtVx x) :=
  of_opKk 0xf 0x15 rfl rfl rfl rfl rfl (fieldOp_packXK _ _ _) (fieldKk_packXK _ _ _)

theorem ldStVx (x : Reg) : Statement (.ldStVx x) :=
  of_opKk 0xf 0x18 rfl rfl rfl rfl rfl (fieldOp_packXK _ _ _) (fieldKk_packXK _ _ _)

theorem addIVx (x : Reg) : Statement (.addIVx x) :=
  of_opKk 0xf 0x1e rfl rfl rfl rfl rfl (fieldOp_packXK _ _ _) (fieldKk_packXK _ _ _)

theorem ldFVx (x : Reg) : Statement (.ldFVx x) :=
  of_opKk 0xf 0x29 rfl rfl rfl rfl rfl (fieldOp_packXK _ _ _) (fieldKk_packXK _ _ _)

theorem ldBVx (x : Reg) : Statement (.ldBVx x) :=
  of_opKk 0xf 0x33 rfl rfl rfl rfl rfl (fieldOp_packXK _ _ _) (fieldKk_packXK _ _ _)

theorem ldMemVx (x : Reg) : Statement (.ldMemVx x) :=
  of_opKk 0xf 0x55 rfl rfl rfl rfl rfl (fieldOp_packXK _ _ _) (fieldKk_packXK _ _ _)

theorem ldVxMem (x : Reg) : Statement (.ldVxMem x) :=
  of_opKk 0xf 0x65 rfl rfl rfl rfl rfl (fieldOp_packXK _ _ _) (fieldKk_packXK _ _ _)

end Sys2Proof.Laws.EncodeInOwnRow
end

