-- ==== Sys2Proof/Tests/Slice0.lean ====
section
/-! SUPPORT. The model's own tests. Words are written out from spec/30_encoding.md R71, expected results
from the vectors of spec/95_test_vectors.md (V<n>, S<n>) or the examples in the rules (R<n>). Then one
witness for the hypotheses of each statement. -/

namespace Sys2Proof.Tests

open Sys2Proof.Machine

/-! ### Helpers -/

/-- The outcome is a next state of which the check holds. -/
def nextHas (p : State → Bool) : Host.Outcome State Fault Refusal → Bool
  | .next t => p t
  | .fault _ => false
  | .refused _ => false

/-- The outcome is this fault. -/
def faultIs (e : Fault) : Host.Outcome State Fault Refusal → Bool
  | .next _ => false
  | .fault f => f == e
  | .refused _ => false

/-- One step from the state with the word at PC. -/
def stepWord (s : State) (w : Nat) : Host.Outcome State Fault Refusal := step (s.withFetchWord 16 w)

/-- The reset state with two registers set. -/
def regs2 (x : Reg) (a : Byte) (y : Reg) (b : Byte) : State := (State.reset.setV x a).setV y b

/-- The reset state with I set. -/
def atI (w : Word) : State := State.reset.setI w

/-- A state with one entry on the stack. -/
def oneDeep : State := { State.reset with stack := State.reset.stack.set 0 0x204, sp := 1 }

/-- A state with a full stack. -/
def fullStack : State := { State.reset with sp := 16 }

/-! ### Well-formedness: the ill-formed terms of the one check -/

theorem test_wf_refuses_sys_00E0 : (Instr.sysNnn 0x0E0).wellFormed = false := by decide
theorem test_wf_refuses_sys_00EE : (Instr.sysNnn 0x0EE).wellFormed = false := by decide
theorem test_wf_accepts_sys_0123 : (Instr.sysNnn 0x123).wellFormed = true := by decide

/-! ### Decoding: a word of every constructor -/

theorem test_decode_family0 :
    decodeWord 0x0123 = .instr (.sysNnn 0x123) ∧ decodeWord 0x00E0 = .instr .cls ∧
    decodeWord 0x00EE = .instr .ret ∧ decodeWord 0x0AE0 = .instr (.sysNnn 0xAE0) := by decide

theorem test_decode_control :
    decodeWord 0x1234 = .instr (.jpNnn 0x234) ∧ decodeWord 0x2300 = .instr (.callNnn 0x300) ∧
    decodeWord 0x3342 = .instr (.seVxKk 3 0x42) ∧ decodeWord 0x4FA5 = .instr (.sneVxKk 0xF 0xA5) ∧
    decodeWord 0x5127 = .instr (.seVxVy 1 2 7) ∧ decodeWord 0x9AB0 = .instr (.sneVxVy 0xA 0xB 0) ∧
    decodeWord 0xBFFF = .instr (.jpV0Nnn 0xFFF) := by decide

theorem test_decode_alu :
    decodeWord 0x6A02 = .instr (.ldVxKk 0xA 0x02) ∧ decodeWord 0x7A05 = .instr (.addVxKk 0xA 0x05) ∧
    decodeWord 0x8120 = .instr (.ldVxVy 1 2) ∧ decodeWord 0x8231 = .instr (.orVxVy 2 3) ∧
    decodeWord 0x8342 = .instr (.andVxVy 3 4) ∧ decodeWord 0x8453 = .instr (.xorVxVy 4 5) ∧
    decodeWord 0x8AB4 = .instr (.addVxVy 0xA 0xB) ∧ decodeWord 0x8675 = .instr (.subVxVy 6 7) ∧
    decodeWord 0x8786 = .instr (.shrVxVy 7 8) ∧ decodeWord 0x8897 = .instr (.subnVxVy 8 9) ∧
    decodeWord 0x89FE = .instr (.shlVxVy 9 0xF) := by decide

theorem test_decode_index_display_random :
    decodeWord 0xA2F0 = .instr (.ldINnn 0x2F0) ∧ decodeWord 0xC30F = .instr (.rndVxKk 3 0x0F) ∧
    decodeWord 0xD125 = .instr (.drwVxVyN 1 2 5) := by decide

theorem test_decode_families_E_F :
    decodeWord 0xE19E = .instr (.skpVx 1) ∧ decodeWord 0xE2A1 = .instr (.sknpVx 2) ∧
    decodeWord 0xF307 = .instr (.ldVxDt 3) ∧ decodeWord 0xF40A = .instr (.ldVxK 4) ∧
    decodeWord 0xF515 = .instr (.ldDtVx 5) ∧ decodeWord 0xF618 = .instr (.ldStVx 6) ∧
    decodeWord 0xF71E = .instr (.addIVx 7) ∧ decodeWord 0xF829 = .instr (.ldFVx 8) ∧
    decodeWord 0xF933 = .instr (.ldBVx 9) ∧ decodeWord 0xF355 = .instr (.ldMemVx 3) ∧
    decodeWord 0xFB65 = .instr (.ldVxMem 0xB) := by decide

theorem test_decode_unassigned :
    decodeWord 0x8128 = .unassigned 0x8128 ∧ decodeWord 0x812F = .unassigned 0x812F ∧
    decodeWord 0xE1FF = .unassigned 0xE1FF ∧ decodeWord 0xF1FF = .unassigned 0xF1FF := by decide

theorem test_decode_bytes :
    (decodeBytes [0x6A, 0x02, 0x7A] matches .ok (.instr (.ldVxKk 0xA 0x02), [0x7A])) = true ∧
    (decodeBytes [0x6A] matches .error .truncated) = true ∧
    decodeTableWord 16 0xD125 = some (.drwVxVyN 1 2 5) := by decide

/-! ### The cycle driver (V1..V7) -/

theorem test_V1_fetch_at_end_of_memory :
    nextHas (fun t => t.pc == 0x200) (stepWord (State.reset.setPc 0xFFE) 0x1200) = true := by decide

theorem test_V2_V3_fetch_out_of_memory :
    faultIs (.addressOutOfRange 0xFFF none 0x1000) (step (State.reset.setPc 0xFFF)) = true ∧
    faultIs (.addressOutOfRange 0x1000 none 0x1000) (step (State.reset.setPc 0x1000)) = true := by
  decide

theorem test_V4_unassigned_ticks :
    nextHas (fun t => t.getV 1 == 0 && t.pc == 0x202 && t.dt == 2 && t.st == 0)
      (stepWord { State.reset with dt := 3, st := 1 } 0x8128) = true := by decide

theorem test_V5_timers_clamp :
    nextHas (fun t => t.pc == 0x202 && t.dt == 0 && t.st == 0) (step State.reset) = true := by decide

/-! ### Control flow (V10..V24) -/

theorem test_V10_sys : nextHas (fun t => t.pc == 0x202) (stepWord State.reset 0x0123) = true := by
  decide

theorem test_V11_ret_underflow :
    faultIs (.stackUnderflow 0x200 0x00EE) (stepWord State.reset 0x00EE) = true := by decide

theorem test_R92_ret :
    nextHas (fun t => t.sp == 0 && t.pc == 0x204) (stepWord oneDeep 0x00EE) = true := by decide

theorem test_V14_jp_odd : nextHas (fun t => t.pc == 0x201) (stepWord State.reset 0x1201) = true := by
  decide

theorem test_V17_jp_v0_not_masked :
    nextHas (fun t => t.pc == 0x10FE) (stepWord (State.reset.setV 0 0xFF) 0xBFFF) = true := by decide

theorem test_V18_call :
    nextHas (fun t => t.stack[0] == 0x202 && t.sp == 1 && t.pc == 0x300)
      (stepWord State.reset 0x2300) = true := by decide

theorem test_V19_call_overflow :
    faultIs (.stackOverflow 0x200 0x2300) (stepWord fullStack 0x2300) = true := by decide

theorem test_V20_se :
    nextHas (fun t => t.pc == 0x204) (stepWord (State.reset.setV 3 0x42) 0x3342) = true ∧
    nextHas (fun t => t.pc == 0x202) (stepWord (State.reset.setV 3 0x42) 0x3343) = true := by decide

theorem test_V21_sne :
    nextHas (fun t => t.pc == 0x202) (stepWord (State.reset.setV 3 0x42) 0x4342) = true ∧
    nextHas (fun t => t.pc == 0x204) (stepWord (State.reset.setV 3 0x42) 0x4300) = true := by decide

theorem test_V22_se_registers_nibble_ignored :
    nextHas (fun t => t.pc == 0x204) (stepWord (regs2 1 3 2 3) 0x5121) = true := by decide

theorem test_V23_sne_registers :
    nextHas (fun t => t.pc == 0x204) (stepWord (regs2 1 3 2 4) 0x9120) = true ∧
    nextHas (fun t => t.pc == 0x202) (stepWord (regs2 1 3 2 4) 0x9110) = true := by decide

/-! ### Arithmetic (V30..V61) -/

theorem test_V30_ld : nextHas (fun t => t.getV 0xA == 0x02) (stepWord State.reset 0x6A02) = true := by
  decide

theorem test_V32_add_immediate_no_flag :
    nextHas (fun t => t.getV 1 == 0x01 && t.getV 0xF == 0x55)
      (stepWord (regs2 1 0x02 0xF 0x55) 0x71FF) = true := by decide

theorem test_V34_copy :
    nextHas (fun t => t.getV 1 == 0x99) (stepWord (regs2 1 0x11 2 0x99) 0x8120) = true := by decide

theorem test_V35_or_no_flag :
    nextHas (fun t => t.getV 1 == 0xFF && t.getV 0xF == 0x55)
      (stepWord ((regs2 1 0x0F 2 0xF0).setV 0xF 0x55) 0x8121) = true := by decide

theorem test_V36_and :
    nextHas (fun t => t.getV 1 == 0x0C) (stepWord (regs2 1 0x3C 2 0x0F) 0x8122) = true := by decide

theorem test_V37_xor :
    nextHas (fun t => t.getV 1 == 0xF0) (stepWord (regs2 1 0xFF 2 0x0F) 0x8123) = true := by decide

theorem test_V38_add_carry :
    nextHas (fun t => t.getV 1 == 0x00 && t.getV 0xF == 1)
      (stepWord (regs2 1 0xFF 2 0x01) 0x8124) = true := by decide

theorem test_V42_add_into_vf_flag_last :
    nextHas (fun t => t.getV 0xF == 1) (stepWord (regs2 0xF 0x80 1 0x80) 0x8F14) = true := by decide

theorem test_V45_sub_borrow :
    nextHas (fun t => t.getV 1 == 0xF0 && t.getV 0xF == 0)
      (stepWord (regs2 1 0x10 2 0x20) 0x8125) = true := by decide

theorem test_V46_sub_equal_no_borrow :
    nextHas (fun t => t.getV 1 == 0x00 && t.getV 0xF == 1)
      (stepWord (regs2 1 0x05 2 0x05) 0x8125) = true := by decide

theorem test_V49_V50_subn :
    nextHas (fun t => t.getV 1 == 0x20 && t.getV 0xF == 1)
      (stepWord (regs2 1 0x10 2 0x30) 0x8127) = true ∧
    nextHas (fun t => t.getV 1 == 0xE0 && t.getV 0xF == 0)
      (stepWord (regs2 1 0x30 2 0x10) 0x8127) = true := by decide

theorem test_V52_shr :
    nextHas (fun t => t.getV 1 == 0x02 && t.getV 0xF == 1)
      (stepWord (State.reset.setV 1 0x05) 0x8106) = true := by decide

/-- V56, both values of SHIFT_USES_VY: a = 0x04, b = 0x01. -/
theorem test_V56_shift_source :
    nextHas (fun t => t.getV 1 == 0x02 && t.getV 0xF == 0)
      (stepWord (regs2 1 0x04 2 0x01) 0x8126) = true ∧
    shrResult (shiftSource true 0x04 0x01) = 0x00 ∧ shrFlag (shiftSource true 0x04 0x01) = 1 := by
  decide

theorem test_V58_shl :
    nextHas (fun t => t.getV 1 == 0x02 && t.getV 0xF == 1)
      (stepWord (State.reset.setV 1 0x81) 0x810E) = true := by decide

/-! ### Index and memory (V70..V85) -/

theorem test_V70_ld_i : nextHas (fun t => t.i == 0x2F0) (stepWord State.reset 0xA2F0) = true := by
  decide

theorem test_V71_V72_add_i :
    nextHas (fun t => t.i == 0x1001 && t.getV 0xF == 0)
      (stepWord ((atI 0x0FFF).setV 2 0x02) 0xF21E) = true ∧
    nextHas (fun t => t.i == 0x0000) (stepWord ((atI 0xFFFF).setV 0 0x01) 0xF01E) = true := by decide

theorem test_V73_glyph :
    nextHas (fun t => t.i == 0x032) (stepWord (State.reset.setV 0xC 0x1A) 0xFC29) = true := by decide

theorem test_V74_bcd :
    nextHas (fun t => Memory.readBytes t.mem 0x300 3 == [2, 5, 5] && t.i == 0x300)
      (stepWord ((atI 0x300).setV 0 0xFF) 0xF033) = true := by decide

theorem test_V77_V78_bcd_errors :
    faultIs (.addressOutOfRange 0x200 (some 0xF033) 0x1000) (stepWord (atI 0xFFE) 0xF033) = true ∧
    faultIs (.reservedWrite 0x200 0xF033 0x1FF) (stepWord (atI 0x1FF) 0xF033) = true := by decide

theorem test_V79_store :
    nextHas (fun t => Memory.readBytes t.mem 0x300 3 == [1, 2, 3] && t.i == 0x303)
      (stepWord (((atI 0x300).setV 0 1 |>.setV 1 2).setV 2 3) 0xF255) = true := by decide

theorem test_V81_V82_store_errors :
    faultIs (.addressOutOfRange 0x200 (some 0xFF55) 0x1000) (stepWord (atI 0xFF1) 0xFF55) = true ∧
    faultIs (.reservedWrite 0x200 0xFF55 0x1F0) (stepWord (atI 0x1F0) 0xFF55) = true := by decide

theorem test_V83_load_glyph :
    nextHas (fun t => t.v.toList.take 5 == [0xF0, 0x90, 0x90, 0x90, 0xF0] && t.i == 0x005)
      (stepWord (atI 0x000) 0xF465) = true := by decide

theorem test_V85_load_error :
    faultIs (.addressOutOfRange 0x200 (some 0xF165) 0x1000) (stepWord (atI 0xFFF) 0xF165) = true := by
  decide

/-! ### Display (V90..V100) -/

/-- The first eight pixels of row `py`. -/
def row8 (s : State) (py : Nat) : List Bool := ((s.fb[py]?).map (·.toList.take 8)).getD []

theorem test_V91_glyph_A :
    nextHas (fun t => row8 t 0 == [true, true, true, true, false, false, false, false] &&
        row8 t 1 == [true, false, false, true, false, false, false, false] &&
        row8 t 2 == row8 t 0 && row8 t 3 == row8 t 1 && row8 t 4 == row8 t 1 &&
        t.getV 0xF == 0 && t.dirty)
      (stepWord (atI 0x032) 0xD015) = true := by decide

theorem test_V93_clip :
    nextHas (fun t => pixel t.fb 62 0 == some true && pixel t.fb 63 0 == some true &&
        pixel t.fb 0 0 == some false && t.getV 0xF == 0)
      (stepWord (State.reset.setV 0 62) 0xD011) = true := by decide

theorem test_V90_cls :
    nextHas (fun t => row8 t 0 == List.replicate 8 false && t.dirty && t.getV 0xF == 7)
      (stepWord { State.reset.setV 0xF 7 with fb := (drawPixel 0 0 (clearFramebuffer, false)).1 }
        0x00E0) = true := by decide

theorem test_V97_collision :
    nextHas (fun t => pixel t.fb 0 0 == some false && t.getV 0xF == 1)
      (stepWord { State.reset with fb := (drawPixel 0 0 (clearFramebuffer, false)).1 } 0xD011) =
      true := by decide

theorem test_V99_draw_error :
    faultIs (.addressOutOfRange 0x200 (some 0xD013) 0x1000) (stepWord (atI 0xFFE) 0xD013) = true := by
  decide

theorem test_V100_coordinate_from_vf :
    nextHas (fun t => pixel t.fb 5 0 == some true && pixel t.fb 4 0 == some false && t.getV 0xF == 0)
      (stepWord ((atI 0x032).setV 0xF 5) 0xDF15) = true := by decide

/-! ### Random, timers and keypad (V110..V120) -/

/-- R139: the draw is free, the mask 0x00 leaves nothing of it. -/
theorem test_V110_rnd :
    exec (.rndVxKk 3 0x0F) State.reset =
      .next (State.reset.setV 3 (Config.rand8 0 &&& 0x0F)) ∧
    exec (.rndVxKk 3 0x00) State.reset = .next (State.reset.setV 3 0) :=
  ⟨rfl, by simp [exec, execRndVxKk]⟩

theorem test_V111_read_dt_before_tick :
    nextHas (fun t => t.getV 3 == 0x10 && t.dt == 0x0F)
      (stepWord { State.reset with dt := 0x10 } 0xF307) = true := by decide

theorem test_V113_set_dt_ticked :
    nextHas (fun t => t.dt == 4) (stepWord (State.reset.setV 3 5) 0xF315) = true := by decide

theorem test_V114_set_st_ticked :
    nextHas (fun t => t.st == 1) (stepWord (State.reset.setV 3 2) 0xF318) = true := by decide

/-- A keypad with two keys down. -/
def twoKeys (j k : Nat) : State :=
  { State.reset with key := (State.reset.key.setIfInBounds j true).setIfInBounds k true }

theorem test_V115_key_wait :
    nextHas (fun t => t.pc == 0x200 && t.getV 1 == 0) (stepWord State.reset 0xF10A) = true := by decide

theorem test_V116_smallest_key :
    nextHas (fun t => t.getV 1 == 3 && t.pc == 0x202) (stepWord (twoKeys 9 3) 0xF10A) = true := by decide

theorem test_V118_skp :
    nextHas (fun t => t.pc == 0x204) (stepWord ((twoKeys 7 7).setV 1 7) 0xE19E) = true ∧
    nextHas (fun t => t.pc == 0x202) (stepWord (State.reset.setV 1 7) 0xE19E) = true := by decide

theorem test_V119_sknp :
    nextHas (fun t => t.pc == 0x204) (stepWord (State.reset.setV 1 7) 0xE1A1) = true ∧
    nextHas (fun t => t.pc == 0x202) (stepWord ((twoKeys 7 7).setV 1 7) 0xE1A1) = true := by decide

theorem test_V120_no_such_key :
    faultIs (.keyOutOfRange 0x200 0xE19E 0x10) (stepWord (State.reset.setV 1 0x10) 0xE19E) = true ∧
    faultIs (.keyOutOfRange 0x200 0xE1A1 0x10) (stepWord (State.reset.setV 1 0x10) 0xE1A1) = true := by
  decide

/-! ### Witnesses: the hypotheses of each statement can be met together -/

theorem witness_StepKeepsMemoryInvariant :
    MemoryInv State.reset ∧ ∃ t, step State.reset = .next t := ⟨⟨rfl, fun _ _ => rfl⟩, _, rfl⟩

/-- The first clause from a state that reset is not, and the second over a loaded program. -/
theorem witness_HostCallsKeepInvariantWhileReady :
    (let s := State.reset.setV 1 7
     (s.status = .ready → MemoryInv s) ∧ (HostCall.run .step s).status = .ready) ∧
    (runCalls [.loadProgram [0x00, 0xE0], .step, .clearDirty] State.reset).status = .ready :=
  ⟨⟨fun _ => ⟨rfl, fun _ _ => rfl⟩, rfl⟩, rfl⟩

theorem witness_DecodeOfEncodeIsIdentity :
    (Instr.sysNnn 0x0E1).wellFormed = true ∧ (Instr.drwVxVyN 15 15 15).wellFormed = true := ⟨rfl, rfl⟩

theorem witness_EncodeOfDecodeIsIdentity : decodeWord 0xFFFF = .unassigned 0xFFFF ∧
    decodeWord 0xDFFF = .instr (.drwVxVyN 15 15 15) := by decide

/-- The three clauses at PC = 0xFFE, 0x1000 and 0xFFF. -/
theorem witness_FetchReadsBigEndianOrFails :
    (State.reset.setPc 0xFFE).pc.toNat + 1 < 4096 ∧
    ((State.reset.setPc 0x1000).status = .ready ∧ 4096 ≤ (State.reset.setPc 0x1000).pc.toNat) ∧
    ((State.reset.setPc 0xFFF).status = .ready ∧ (State.reset.setPc 0xFFF).pc.toNat < 4096 ∧
      4096 ≤ (State.reset.setPc 0xFFF).pc.toNat + 1) := by decide

/-- The reset memory holds 0000, SYS, at 0x200, and both clauses are met: SYS completes, RET fails. -/
theorem witness_StepRunsDecodedInstruction :
    State.reset.status = .ready ∧ State.reset.pc.toNat + 1 < 4096 ∧
    decodeBytes [State.reset.readByte State.reset.pc.toNat,
      State.reset.readByte (State.reset.pc.toNat + 1)] = .ok (.instr (.sysNnn 0), []) ∧
    (∃ t, exec (.sysNnn 0) { State.reset with pc := State.reset.pc + 2 } = .next t) ∧
    ∃ e, exec .ret { State.reset with pc := State.reset.pc + 2 } = .fault e :=
  ⟨rfl, by decide, rfl, ⟨_, rfl⟩, _, rfl⟩

theorem witness_UnassignedSubcodeOnlyAdvances :
    (State.reset.withFetchWord 16 0x8128).status = .ready ∧
    (State.reset.withFetchWord 16 0x8128).fetch = .ok 0x8128 ∧
    decodeWord 0x8128 = .unassigned 0x8128 := ⟨rfl, rfl, rfl⟩

theorem witness_NoStepUnlessReady :
    { State.reset with status := .unloadable }.status ≠ .ready ∧
    { State.reset with status := .failed (.stackUnderflow 0x200 0x00EE) }.status ≠ .ready := by decide

/-- A plain word, and LD DT and LD ST themselves. -/
theorem witness_TimersTickOnceAStep :
    (∃ t, step State.reset = .next t) ∧ State.reset.fetch = .ok 0x0000 ∧
    (∃ t, stepWord State.reset 0xF315 = .next t) ∧
    (State.reset.withFetchWord 16 0xF315).fetch = .ok 0xF315 ∧
    decodeWord 0xF315 = .instr (.ldDtVx 3) ∧
    (∃ t, stepWord State.reset 0xF318 = .next t) ∧
    (State.reset.withFetchWord 16 0xF318).fetch = .ok 0xF318 ∧
    decodeWord 0xF318 = .instr (.ldStVx 3) :=
  ⟨⟨_, rfl⟩, rfl, ⟨_, rfl⟩, rfl, rfl, ⟨_, rfl⟩, rfl, rfl⟩

/-- A completed step of a jump, of RET, of a skip, of a key-wait and of a plain word. -/
theorem witness_CompletedStepSetsPc :
    (∃ t, stepWord State.reset 0x1234 = .next t) ∧ (∃ t, stepWord oneDeep 0x00EE = .next t) ∧
    (∃ t, stepWord State.reset 0x3000 = .next t) ∧ (∃ t, stepWord State.reset 0xF10A = .next t) ∧
    (∃ t, step State.reset = .next t) ∧
    (State.reset.withFetchWord 16 0x1234).fetch = .ok 0x1234 :=
  ⟨⟨_, rfl⟩, ⟨_, rfl⟩, ⟨_, rfl⟩, ⟨_, rfl⟩, ⟨_, rfl⟩, rfl⟩

theorem witness_ErrorRecordsAddressAndWord :
    (∃ e, stepWord State.reset 0x00EE = .fault e) ∧
    ∃ e, step (State.reset.setPc 0xFFF) = .fault e := ⟨⟨_, rfl⟩, _, rfl⟩

theorem witness_PlacedWordIsFetched : (State.reset.setPc 0xFFE).pc.toNat + 1 < 4096 := by decide

/-- SP = 1 and SP = 16 for the pop, SP = 0 for the error; SP = 15 for the push, SP = 16 for the error. -/
theorem witness_ReturnPopsOrUnderflows_CallPushesOrOverflows :
    0 < oneDeep.sp.val ∧ 0 < fullStack.sp.val ∧ State.reset.sp.val = 0 ∧
    { State.reset with sp := 15 }.sp.val < 16 ∧ fullStack.sp.val = 16 := by decide

theorem witness_ReturnUndoesCall :
    ∃ t u : State, exec (.callNnn 0x300) State.reset = .next t ∧ u.stack = t.stack ∧ u.sp = t.sp :=
  ⟨_, _, rfl, rfl, rfl⟩

/-- x is not VF, in the clauses that say what V[x] holds. -/
theorem witness_flag_writers : (0 : Reg) ≠ regF ∧ (14 : Reg) ≠ regF := by decide

/-- I at each end of each clause. -/
theorem witness_BcdStoresDigitsOrFails :
    (0x1FF < (atI 0x200).i.toNat ∧ (atI 0x200).i.toNat + 2 < 4096) ∧
    (0x1FF < (atI 0xFFD).i.toNat ∧ (atI 0xFFD).i.toNat + 2 < 4096) ∧
    (atI 0x1FF).i.toNat ≤ 0x1FF ∧ 4096 ≤ (atI 0xFFE).i.toNat + 2 := by decide

theorem witness_BlockStoreOrFails :
    (0x1FF < (atI 0xFF0).i.toNat ∧ (atI 0xFF0).i.toNat + (15 : Reg).val < 4096) ∧
    (atI 0x1FF).i.toNat ≤ 0x1FF ∧
    (4096 ≤ (atI 0xFF1).i.toNat + (15 : Reg).val ∧ 0x1FF < (atI 0xFF1).i.toNat) := by decide

/-- The load's error at its last address, and at its first. -/
theorem witness_BlockLoadOrFails :
    (atI 0xFF0).i.toNat + (15 : Reg).val < 4096 ∧
    (15 ≤ (15 : Reg).val ∧ 4096 ≤ (atI 0xFF1).i.toNat + 15 ∧
      ∀ j, j < 15 → (atI 0xFF1).i.toNat + j < 4096) ∧
    (0 ≤ (15 : Reg).val ∧ 4096 ≤ (atI 0x1000).i.toNat + 0 ∧
      ∀ j, j < 0 → (atI 0x1000).i.toNat + j < 4096) := by decide

theorem witness_BlockStoreThenLoadRoundTrips :
    (atI 0x300).i.toNat = (0x300 : Addr12).toNat ∧ 0x1FF < (0x300 : Addr12).toNat ∧
    (0x300 : Addr12).toNat + (15 : Reg).val < 4096 := by decide

theorem witness_StoredBytesAreFetchedNext :
    (∃ t, exec (.ldMemVx 1) (atI 0x300) = .next t) ∧ (0 : Reg).val + 1 ≤ (1 : Reg).val ∧
    (1 : Reg).val = (0 : Reg).val + 1 := ⟨⟨_, rfl⟩, by decide, by decide⟩

theorem witness_DrawXorsCoveredPixels :
    ∀ r, r < (15 : Nibble).toNat → (atI 0xFF1).i.toNat + r < 4096 := by decide

theorem witness_DrawOutOfMemoryFails :
    (15 : Nibble).toNat ≠ 0 ∧ 4096 < (atI 0xFF2).i.toNat + (15 : Nibble).toNat := by decide

theorem witness_DrawingTwiceRestoresFramebuffer :
    (0 : Reg) ≠ regF ∧ (1 : Reg) ≠ regF ∧ ∃ t, exec (.drwVxVyN 0 1 5) State.reset = .next t :=
  ⟨by decide, by decide, _, rfl⟩

theorem witness_TimerTransfers :
    State.reset.status = .ready ∧
    (State.reset.withFetchWord 16 0xF307).fetch = .ok 0xF307 ∧
    decodeWord 0xF307 = .instr (.ldVxDt 3) ∧
    (State.reset.withFetchWord 16 0xF315).fetch = .ok 0xF315 ∧
    decodeWord 0xF315 = .instr (.ldDtVx 3) ∧
    (State.reset.withFetchWord 16 0xF318).fetch = .ok 0xF318 ∧
    decodeWord 0xF318 = .instr (.ldStVx 3) := ⟨rfl, rfl, rfl, rfl, rfl, rfl, rfl⟩

/-- Keys 3 and 9 down: 3 is the smallest; no key down at reset. -/
theorem witness_KeyWaitTakesSmallestOrWaits :
    ((twoKeys 9 3).keyDown 3 = true ∧ ∀ j, j < 3 → (twoKeys 9 3).keyDown j = false) ∧
    ∀ k, k < 16 → State.reset.keyDown k = false := by decide

theorem witness_KeyWaitHoldsPcForEver :
    (State.reset.withFetchWord 16 0xF10A).status = .ready ∧
    (State.reset.withFetchWord 16 0xF10A).fetch = .ok 0xF10A ∧
    decodeWord 0xF10A = .instr (.ldVxK 1) ∧
    ∀ k, k < 16 → (State.reset.withFetchWord 16 0xF10A).keyDown k = false :=
  ⟨rfl, rfl, rfl, by decide⟩

theorem witness_KeySkipsOrFail :
    ((State.reset.setV 1 15).getV 1).toNat ≤ 15 ∧ 15 < ((State.reset.setV 1 16).getV 1).toNat := by
  decide

theorem witness_HandlersChangeOnlyTheirOwn :
    (∃ t, exec (.ldBVx 0) (atI 0x200) = .next t) ∧ ∃ t, exec .cls State.reset = .next t :=
  ⟨⟨_, rfl⟩, _, rfl⟩

theorem witness_HandlerCompletesExactlyWhen :
    Completes .ret oneDeep ∧ ¬ Completes .ret State.reset :=
  ⟨Nat.zero_lt_one, Nat.lt_irrefl 0⟩

theorem witness_VfWritersAreExactlyThese :
    (∃ t, exec (.addVxVy 15 1) State.reset = .next t) ∧ (14 : Reg) ≠ regF ∧
    (∃ t, exec (.ldVxKk 14 1) State.reset = .next t) ∧ ∃ t, exec (.jpNnn 0) State.reset = .next t :=
  ⟨⟨_, rfl⟩, by decide, ⟨_, rfl⟩, _, rfl⟩

theorem witness_DirtySetByDrawingOnly :
    (∃ t, exec (.drwVxVyN 0 0 0) State.reset = .next t) ∧
    ∃ t, exec (.sysNnn 0) State.reset = .next t := ⟨⟨_, rfl⟩, _, rfl⟩

/-- Two different states that agree but for a stale slot. -/
theorem witness_StaleSlotsCannotBeRead :
    AgreeUpToStale State.reset { State.reset with stack := State.reset.stack.set 3 0x204 } ∧
    State.reset ≠ { State.reset with stack := State.reset.stack.set 3 0x204 } :=
  ⟨⟨fun _ _ h => absurd h (Nat.not_lt_zero _), rfl⟩, by decide⟩

/-- V130, V131: 3584 bytes and 3585 bytes. -/
theorem witness_LoadProgramCopiesOrFails :
    (List.replicate 3584 (0 : Byte)).length ≤ 3584 ∧ 3584 < (List.replicate 3585 (0 : Byte)).length :=
  ⟨Nat.le_of_eq List.length_replicate, by rw [List.length_replicate]; decide⟩

theorem witness_ErrorFailsTheMachine : ∃ e, stepWord State.reset 0x00EE = .fault e := ⟨_, rfl⟩

end Sys2Proof.Tests
end

section
/-! O11: the fetch (spec/40_cycle_driver.md R82). -/

namespace Sys2Proof.Machine

/-- A Ready machine's step, when the fetch failed (R82, R156); `step_of_fetch` is the other case. -/
theorem step_of_fetch_error {s : State} {e : Fault} (hs : s.status = .ready)
    (he : s.fetch = .error e) : step s = .fault e := by
  simp [step, hs, he]

/-- A Ready machine whose PC + 1 is out of memory fails at PC, or at PC + 1 where PC is still in memory. -/
theorem step_of_pc_out_of_memory {s : State} (hs : s.status = .ready) (h : 4096 ≤ s.pc.toNat + 1) :
    step s = .fault (.addressOutOfRange s.pc none (max s.pc.toNat 4096)) :=
  step_of_fetch_error hs (s.fetch_error h)

/-- Settles O11: `State.fetch_ok` is the first clause, and the two failing ranges are the two values of
the `max` in `step_of_pc_out_of_memory`. -/
theorem fetchReadsBigEndianOrFails : Obligations.FetchReadsBigEndianOrFails := by
  intro s
  refine ⟨fun hin => ⟨_, s.fetch_ok hin, toNat_joinBytes _ _⟩, fun hs hpc => ?_, fun hs hpc hnext => ?_⟩
  · have haddr : max s.pc.toNat 4096 = s.pc.toNat := Nat.max_eq_left hpc
    exact ⟨s.pc, none, haddr ▸ step_of_pc_out_of_memory hs (by omega)⟩
  · have haddr : max s.pc.toNat 4096 = s.pc.toNat + 1 := by omega
    exact ⟨s.pc, none, haddr ▸ step_of_pc_out_of_memory hs hnext⟩

end Sys2Proof.Machine
end

section
/-! O20, O21, O25: return, jump, and the skips on an immediate (spec/41_control_flow.md R92, R93, R96, R97). -/

namespace Sys2Proof.Machine

variable (s : State)

/-! ### The operations these handlers share -/

@[simp] theorem toNat_addrOf (nnn : Addr12) : (addrOf nnn).toNat = nnn.toNat :=
  BitVec.toNat_setWidth_of_le (by decide)

/-- PC after a conditional skip, as a number (R11). -/
theorem State.toNat_pc_skipIf (c : Bool) :
    (s.skipIf c).pc.toNat = (s.pc.toNat + if c then 2 else 0) % 65536 := by
  cases c
  · exact (Nat.mod_eq_of_lt s.pc.isLt).symm
  · exact BitVec.toNat_add _ _

theorem State.pop_of_pos (h : 0 < s.sp.val) :
    s.pop = some (s.stack[s.sp.val - 1], { s with sp := ⟨s.sp.val - 1, by omega⟩ }) :=
  dif_pos h

/-- A pop moves SP and keeps every slot. -/
theorem frame_pop {w : Word} {t : State} (h : s.pop = some (w, t)) : Frame [.stack] [] s t := by
  obtain ⟨_, _, rfl⟩ := s.pop_eq_some h
  exact { Frame.refl s [.stack] [] with stack := fun hp => absurd (by simp) hp }

/-- A stack operation followed by a jump, as in RET and CALL. -/
theorem Frame.setPc_of_stack {s t : State} (h : Frame [.stack] [] s t) (w : Word) :
    Frame [.pc, .stack] [] s (t.setPc w) :=
  have hstack : Frame [.pc, .stack] [] s t := h.mono (by simp) (by simp)
  have hjump : Frame [.pc, .stack] [] t (t.setPc w) := (frame_setPc t w).mono (by simp) (by simp)
  hstack.trans hjump

/-! ### RET -/

theorem exec_ret_of_pop {w : Word} {t : State} (h : s.pop = some (w, t)) :
    exec .ret s = .next (t.setPc w) := by
  simp [exec, execRet, h]

theorem exec_ret_of_pop_none (h : s.pop = none) : exec .ret s = raise .stackUnderflow .ret s := by
  simp [exec, execRet, h]

/-- Settles O20: RET follows `State.pop`, which gives the slot below SP exactly when SP is above 0. -/
theorem returnPopsOrUnderflows : Obligations.ReturnPopsOrUnderflows := by
  intro s
  refine ⟨fun hpos => ?_, fun hzero => ?_⟩
  · have hpop := s.pop_of_pos hpos
    exact ⟨_, exec_ret_of_pop s hpop, Nat.sub_add_cancel hpos, rfl, rfl,
      (frame_pop s hpop).setPc_of_stack _⟩
  · exact exec_ret_of_pop_none s (s.pop_eq_none.2 hzero)

/-! ### JP -/

theorem exec_jpNnn (nnn : Addr12) : exec (.jpNnn nnn) s = .next (s.setPc (addrOf nnn)) := rfl

/-- Settles O21: the handler sets PC to the zero-extended address. -/
theorem jumpSetsPc : Obligations.JumpSetsPc := by
  intro nnn s
  exact ⟨_, exec_jpNnn s nnn, toNat_addrOf nnn, frame_setPc s _⟩

/-! ### SE and SNE -/

theorem exec_seVxKk (x : Reg) (kk : Byte) :
    exec (.seVxKk x kk) s = .next (s.skipIf (s.getV x == kk)) := rfl

theorem exec_sneVxKk (x : Reg) (kk : Byte) :
    exec (.sneVxKk x kk) s = .next (s.skipIf (s.getV x != kk)) := rfl

/-- Settles O25: both are one conditional skip, on the comparison and on its negation. -/
theorem skipOnImmediate : Obligations.SkipOnImmediate := by
  intro x kk s
  refine ⟨⟨_, exec_seVxKk s x kk, ?_, frame_skipIf s _⟩, ⟨_, exec_sneVxKk s x kk, ?_, frame_skipIf s _⟩⟩
  · simp only [State.toNat_pc_skipIf, beq_iff_eq]
  · simp only [State.toNat_pc_skipIf, bne_iff_ne, ite_not]

end Sys2Proof.Machine
end

section
/-! O27, O28: immediates, copy and logic (spec/42_alu.md R106, R107, R109 to R112). Every handler here is
one `State.setV`: `getV_setV_self` reads the result, and `frame_setV` says that no flag is written. -/

namespace Sys2Proof.Machine

variable (s : State)

/-! ### LD and ADD with an immediate -/

/-- The sum narrowed to 8 bits, as a number (R107, R113). -/
@[simp] theorem toNat_addResult (a b : Byte) : (addResult a b).toNat = (a.toNat + b.toNat) % 256 :=
  BitVec.toNat_ofNat _ _

theorem exec_ldVxKk (x : Reg) (kk : Byte) : exec (.ldVxKk x kk) s = .next (s.setV x kk) := rfl

theorem exec_addVxKk (x : Reg) (kk : Byte) :
    exec (.addVxKk x kk) s = .next (s.setV x (addResult (s.getV x) kk)) := rfl

/-- Settles O27: each is one write of VX; the number is that of `addResult`. -/
theorem loadAndAddImmediate : Obligations.LoadAndAddImmediate := by
  intro x kk s
  refine ⟨⟨_, exec_ldVxKk s x kk, s.getV_setV_self x _, frame_setV s x _⟩,
    ⟨_, exec_addVxKk s x kk, ?_, frame_setV s x _⟩⟩
  rw [State.getV_setV_self, toNat_addResult]

/-! ### LD, OR, AND and XOR of two registers -/

theorem exec_ldVxVy (x y : Reg) : exec (.ldVxVy x y) s = .next (s.setV x (s.getV y)) := rfl

theorem exec_orVxVy (x y : Reg) :
    exec (.orVxVy x y) s = .next (s.setV x (s.getV x ||| s.getV y)) := rfl

theorem exec_andVxVy (x y : Reg) :
    exec (.andVxVy x y) s = .next (s.setV x (s.getV x &&& s.getV y)) := rfl

theorem exec_xorVxVy (x y : Reg) :
    exec (.xorVxVy x y) s = .next (s.setV x (s.getV x ^^^ s.getV y)) := rfl

/-- Settles O28: each is one write of VX, by the word operation whose bits the library gives. -/
theorem copyAndLogic : Obligations.CopyAndLogic := by
  intro x y s
  refine ⟨⟨_, exec_ldVxVy s x y, s.getV_setV_self x _, frame_setV s x _⟩,
    ⟨_, exec_orVxVy s x y, fun k => ?_, frame_setV s x _⟩,
    ⟨_, exec_andVxVy s x y, fun k => ?_, frame_setV s x _⟩,
    ⟨_, exec_xorVxVy s x y, fun k => ?_, frame_setV s x _⟩⟩
  · rw [State.getV_setV_self, BitVec.getLsbD_or]
  · rw [State.getV_setV_self, BitVec.getLsbD_and]
  · rw [State.getV_setV_self, BitVec.getLsbD_xor]

end Sys2Proof.Machine
end

section
/-! O32, O36: I and the block load (spec/43_index_memory.md R126, R128, R131). -/

namespace Sys2Proof.Machine

variable (s : State)

/-! ### LD I and LD F -/

/-- Five times the low nibble is at most 75, so 16 bits hold it (R128). -/
@[simp] theorem toNat_glyphAddr (b : Byte) : (glyphAddr b).toNat = 5 * (b.toNat % 16) :=
  (BitVec.toNat_ofNat _ _).trans (Nat.mod_eq_of_lt (by omega))

theorem exec_ldINnn (nnn : Addr12) : exec (.ldINnn nnn) s = .next (s.setI (addrOf nnn)) := rfl

theorem exec_ldFVx (x : Reg) : exec (.ldFVx x) s = .next (s.setI (glyphAddr (s.getV x))) := rfl

/-- Settles O32: each is one write of I, whose value `toNat_addrOf` and `toNat_glyphAddr` give. -/
theorem loadIndexAndGlyph : Obligations.LoadIndexAndGlyph :=
  ⟨fun nnn s => ⟨_, exec_ldINnn s nnn, toNat_addrOf nnn, frame_setI s _⟩,
    fun x s => ⟨_, exec_ldFVx s x, toNat_glyphAddr _, frame_setI s _⟩⟩

/-! ### LD VX, [I] -/

/-- I after a block transfer, as a number (R130, R131). -/
@[simp] theorem toNat_indexAfterTransfer (i : Word) (x : Reg) :
    (indexAfterTransfer i x).toNat = (i.toNat + x.val + 1) % 65536 :=
  BitVec.toNat_ofNat _ _

/-- The state after a block load whose addresses are all in memory (R131). -/
def State.loadBlock (x : Reg) : State :=
  { s with
    v := loadRegs s.v 0 (Memory.readBytes s.mem s.i.toNat (x.val + 1))
    i := indexAfterTransfer s.i x }

/-- The registers after a block load: V[0]..V[x] from memory, the others kept. -/
theorem State.getV_loadBlock (x k : Reg) :
    (s.loadBlock x).getV k = if k ≤ x then s.readByte (s.i.toNat + k.val) else s.getV k := by
  simp only [State.getV, State.loadBlock, State.readByte, getElem_loadRegs,
    Memory.getElem?_readBytes, Nat.zero_le, if_true, Nat.sub_zero, Nat.lt_succ_iff, Fin.le_def]
  split <;> rfl

theorem frame_loadBlock (x : Reg) : Frame (.i :: regsThrough x) [] s (s.loadBlock x) :=
  { Frame.refl s (.i :: regsThrough x) [] with
    v := fun k hk => by
      have hkx : ¬ k ≤ x := fun h => hk (List.mem_cons_of_mem _ (mem_regsThrough.2 h))
      rw [State.getV_loadBlock, if_neg hkx]
    i := fun h => absurd List.mem_cons_self h }

theorem exec_ldVxMem_of_inMemory {x : Reg} (h : s.i.toNat + x.val < 4096) :
    exec (.ldVxMem x) s = .next (s.loadBlock x) := by
  have hpass : firstFailing readCheck s.i.toNat (x.val + 1) = none :=
    firstFailing_readCheck_none.2 (.inr h)
  simp only [exec, execLdVxMem, hpass, State.loadBlock]

/-- The load that leaves memory fails at I, or at 4096 where I is still in memory. -/
theorem exec_ldVxMem_of_outOfMemory {x : Reg} (h : 4096 ≤ s.i.toNat + x.val) :
    exec (.ldVxMem x) s = raise (.addressOutOfRange (max s.i.toNat 4096)) (.ldVxMem x) s := by
  have hfail := firstFailing_readCheck_some (Nat.succ_ne_zero x.val) (Nat.lt_succ_of_le h)
  simp only [exec, execLdVxMem, hfail]

/-- Settles O36: in memory the load is `State.loadBlock`; otherwise the first k with I + k of 4096 or more
is where `max I 4096` lies. -/
theorem blockLoadOrFails : Obligations.BlockLoadOrFails := by
  intro x s
  refine ⟨fun hin => ⟨_, exec_ldVxMem_of_inMemory s hin, fun k hk => ?_, fun k hk => ?_,
    toNat_indexAfterTransfer _ _, frame_loadBlock s x⟩, fun k hkx hout hfirst => ?_⟩
  · rw [State.getV_loadBlock, if_pos hk]
  · rw [State.getV_loadBlock, if_neg (Fin.not_le.2 hk)]
  · have haddr : max s.i.toNat 4096 = s.i.toNat + k := by
      cases k with
      | zero => exact Nat.max_eq_left hout
      | succ j =>
        have hprev := hfirst j (Nat.lt_succ_self j)
        omega
    exact ⟨_, _, haddr ▸ exec_ldVxMem_of_outOfMemory s (by omega)⟩

end Sys2Proof.Machine
end

section
/-! O39: clearing the screen (spec/44_display.md R134). -/

namespace Sys2Proof.Machine

variable (s : State)

/-- The state after CLS: every pixel 0, dirty set whatever the pixels were (R134). -/
def State.clearScreen : State := { s with fb := clearFramebuffer, dirty := true }

theorem frame_clearScreen : Frame [.fb, .dirty] [] s s.clearScreen :=
  { Frame.refl s [.fb, .dirty] [] with
    fb := fun h => absurd (by simp) h
    dirty := fun h => absurd (by simp) h }

theorem exec_cls : exec .cls s = .next s.clearScreen := rfl

/-- Settles O39: CLS is one update of the framebuffer and dirty; `pixel_clearFramebuffer` reads its pixels. -/
theorem clearScreenZeroesPixels : Obligations.ClearScreenZeroesPixels := fun s =>
  ⟨_, exec_cls s, fun _ _ => pixel_clearFramebuffer, rfl, frame_clearScreen s⟩

end Sys2Proof.Machine
end

section
/-! O5, O6, O7, O8, O9, O10: decoder and encoder (spec/30_encoding.md R61 to R72). -/

namespace Sys2Proof

/-- Settles O5: the laws of the fields; the two fields that reach bit 15 need no modulus. -/
theorem wordFieldsAreBitRanges : Obligations.WordFieldsAreBitRanges := by
  intro w
  have hop : w.toNat / 4096 % 16 = w.toNat / 4096 := Nat.mod_eq_of_lt (by omega)
  have hhi : w.toNat / 256 % 256 = w.toNat / 256 := Nat.mod_eq_of_lt (by omega)
  exact ⟨(toNat_fieldOp w).trans hop, val_fieldX w, val_fieldY w, toNat_fieldN w, toNat_fieldKk w,
    toNat_fieldNnn w, (toNat_fieldHi w).trans hhi⟩

/-- Settles O10: the decoder evaluated at the seventeen words. -/
theorem sampleWordsDecode : Obligations.SampleWordsDecode := by
  unfold Obligations.SampleWordsDecode
  decide

/-! ### Decode after encode -/

/-- The 12-bit field of the words of CLS and RET is what `Instr.wellFormed` excludes for SYS (R65). -/
theorem packA_zero_ne_of_wellFormed {nnn : Addr12} (h : (Instr.sysNnn nnn).wellFormed = true) :
    packA 0x0 nnn ≠ 0x00E0 ∧ packA 0x0 nnn ≠ 0x00EE := by
  have hne : nnn ≠ 0x0E0 ∧ nnn ≠ 0x0EE := by simpa [Instr.wellFormed] using h
  have hfield (v : Addr12) (hv : packA 0x0 nnn = packA 0x0 v) : nnn = v := by
    rw [← fieldNnn_packA 0x0 nnn, hv, fieldNnn_packA]
  exact ⟨fun h => hne.1 (hfield 0x0E0 h), fun h => hne.2 (hfield 0x0EE h)⟩

/-- The decoder finds an instruction's row and its operands in the instruction's word: the fields of
a packed word are what was packed. SYS also needs that its word is not that of CLS or RET. -/
theorem decodeWord_encode (i : Instr) (h : i.wellFormed = true) :
    decodeWord (encode i) = .instr i := by
  cases i
  case sysNnn nnn =>
    obtain ⟨hcls, hret⟩ := packA_zero_ne_of_wellFormed h
    rw [encode, (decodeWord_of_fieldOp _).1 (fieldOp_packA _ _), decodeFamily0, if_neg hcls,
      if_neg hret, fieldNnn_packA]
  case cls | ret => rfl
  all_goals simp [encode, decodeWord, decodeFamily8, decodeFamilyE, decodeFamilyF]

/-- Settles O6: `decodeWord_encode`, and the two bytes of a word join to the word. -/
theorem decodeOfEncodeIsIdentity : Obligations.DecodeOfEncodeIsIdentity := by
  intro i hwf
  have hword := decodeWord_encode i hwf
  refine ⟨hword, fun rest => ?_⟩
  simp only [encodeBytes, List.cons_append, List.nil_append, decodeBytes, joinBytes_fields, hword]

/-! ### Encode after decode -/

/-- What the decoder may answer for the word: an instruction that it encodes, or the word itself. -/
def DecodesSoundly (w : Word) : Decoded → Prop
  | .instr i => encode i = w ∧ i.wellFormed = true
  | .unassigned v => v = w

theorem encode_sysNnn_fieldNnn {w : Word} (hop : fieldOp w = 0x0) :
    encode (.sysNnn (fieldNnn w)) = w := by
  rw [encode, ← hop, packA_fields]

/-- A word of family 0 that is neither CLS nor RET is a well-formed SYS (R65). -/
theorem wellFormed_sysNnn_of_ne {w : Word} (hop : fieldOp w = 0x0) (hcls : w ≠ 0x00E0)
    (hret : w ≠ 0x00EE) : (Instr.sysNnn (fieldNnn w)).wellFormed = true := by
  have hpack : packA 0x0 (fieldNnn w) = w := encode_sysNnn_fieldNnn hop
  have he0 : fieldNnn w ≠ 0x0E0 := fun hf => hcls (by rw [← hpack, hf]; rfl)
  have hee : fieldNnn w ≠ 0x0EE := fun hf => hret (by rw [← hpack, hf]; rfl)
  simpa [Instr.wellFormed] using And.intro he0 hee

theorem decodeFamily0_sound {w : Word} (h : fieldOp w = 0x0) :
    DecodesSoundly w (decodeFamily0 w) := by
  unfold decodeFamily0
  split
  · next hcls => exact ⟨hcls.symm, rfl⟩
  split
  · next hret => exact ⟨hret.symm, rfl⟩
  · next hcls hret => exact ⟨encode_sysNnn_fieldNnn h, wellFormed_sysNnn_of_ne h hcls hret⟩

theorem decodeFamily8_sound {w : Word} (h : fieldOp w = 0x8) :
    DecodesSoundly w (decodeFamily8 w) := by
  have hpack := packXY_fields w
  rw [h] at hpack
  unfold decodeFamily8
  split
  case h_10 => rfl
  all_goals
    next hn => rw [hn] at hpack; exact ⟨hpack, rfl⟩

theorem decodeFamilyE_sound {w : Word} (h : fieldOp w = 0xE) :
    DecodesSoundly w (decodeFamilyE w) := by
  have hpack := packXK_fields w
  rw [h] at hpack
  unfold decodeFamilyE
  split
  case h_3 => rfl
  all_goals
    next hkk => rw [hkk] at hpack; exact ⟨hpack, rfl⟩

theorem decodeFamilyF_sound {w : Word} (h : fieldOp w = 0xF) :
    DecodesSoundly w (decodeFamilyF w) := by
  have hpack := packXK_fields w
  rw [h] at hpack
  unfold decodeFamilyF
  split
  case h_10 => rfl
  all_goals
    next hkk => rw [hkk] at hpack; exact ⟨hpack, rfl⟩

/-- Every answer of the decoder is sound: four families answer by their own subcode, and in the
other twelve the word is packed from its top nibble and the fields that become the operands (R64). -/
theorem decodeWord_sound (w : Word) : DecodesSoundly w (decodeWord w) := by
  have hA := packA_fields w
  have hXK := packXK_fields w
  have hXY := packXY_fields w
  unfold decodeWord
  split
  case h_1 hop => exact decodeFamily0_sound hop
  case h_9 hop => exact decodeFamily8_sound hop
  case h_15 hop => exact decodeFamilyE_sound hop
  case h_16 =>
    have hop : fieldOp w = 0xF := by
      have hnibble := nibble_cases (fieldOp w)
      simp_all
    exact decodeFamilyF_sound hop
  case h_2 | h_3 | h_11 | h_12 => next hop => rw [hop] at hA; exact ⟨hA, rfl⟩
  case h_4 | h_5 | h_7 | h_8 | h_13 => next hop => rw [hop] at hXK; exact ⟨hXK, rfl⟩
  case h_6 | h_10 | h_14 => next hop => rw [hop] at hXY; exact ⟨hXY, rfl⟩

/-- Settles O7: an instruction is a sound answer only for the word that it encodes. -/
theorem encodeOfDecodeIsIdentity : Obligations.EncodeOfDecodeIsIdentity := by
  intro w i h
  have hsound := decodeWord_sound w
  rwa [h] at hsound

/-! ### The opcode map -/

/-- Every word of the row is the word of a well-formed instruction of that row. -/
def OpcodeRow.Encodes (r : OpcodeRow) : Prop :=
  ∀ w, r.holds w = true → ∃ i : Instr, i.wellFormed = true ∧ encode i = w ∧ i.tableRow = r.number

theorem OpcodeRow.masked_of_holds {k : Nat} {mask pattern w : Word}
    (h : OpcodeRow.holds ⟨k, mask, pattern⟩ w = true) : w &&& mask = pattern := by
  simp only [OpcodeRow.holds, Bool.and_eq_true, beq_iff_eq] at h
  exact h.1

section
variable {k : Nat}

/-- Row 1, which excludes the words of rows 2 and 3. -/
theorem OpcodeRow.encodes_sysNnn : OpcodeRow.Encodes ⟨1, 0xF000, 0x0000⟩ := by
  intro w h
  have hop : fieldOp w = 0x0 := (and_maskOp_iff w 0x0).1 (masked_of_holds h)
  obtain ⟨-, hcls, hret⟩ : _ ∧ w ≠ 0x00E0 ∧ w ≠ 0x00EE := by simpa [OpcodeRow.holds] using h
  exact ⟨.sysNnn (fieldNnn w), wellFormed_sysNnn_of_ne hop hcls hret,
    encode_sysNnn_fieldNnn hop, rfl⟩

/-- A row that fixes the whole word. -/
theorem OpcodeRow.encodes_word {p : Word} (i : Instr)
    (hi : i.wellFormed = true ∧ encode i = p ∧ i.tableRow = k) :
    OpcodeRow.Encodes ⟨k, 0xFFFF, p⟩ := by
  obtain ⟨hwf, henc, hrow⟩ := hi
  intro w h
  have hw : w = p := (and_maskAll w).symm.trans (masked_of_holds h)
  exact ⟨i, hwf, henc.trans hw.symm, hrow⟩

/-- A row of format `A`. -/
theorem OpcodeRow.encodes_A (p : Nibble) (f : Addr12 → Instr)
    (hf : ∀ nnn, (f nnn).wellFormed = true ∧ encode (f nnn) = packA p nnn ∧ (f nnn).tableRow = k) :
    OpcodeRow.Encodes ⟨k, 0xF000, packA p 0⟩ := by
  intro w h
  obtain ⟨hwf, henc, hrow⟩ := hf (fieldNnn w)
  have hop : fieldOp w = p := (and_maskOp_iff w p).1 (masked_of_holds h)
  exact ⟨_, hwf, henc.trans (hop ▸ packA_fields w), hrow⟩

/-- A row of format `XK`. -/
theorem OpcodeRow.encodes_XK (p : Nibble) (f : Reg → Byte → Instr)
    (hf : ∀ x kk, (f x kk).wellFormed = true ∧ encode (f x kk) = packXK p x kk ∧
      (f x kk).tableRow = k) : OpcodeRow.Encodes ⟨k, 0xF000, packA p 0⟩ := by
  intro w h
  obtain ⟨hwf, henc, hrow⟩ := hf (fieldX w) (fieldKk w)
  have hop : fieldOp w = p := (and_maskOp_iff w p).1 (masked_of_holds h)
  exact ⟨_, hwf, henc.trans (hop ▸ packXK_fields w), hrow⟩

/-- A row of format `XYN`. -/
theorem OpcodeRow.encodes_XYN (p : Nibble) (f : Reg → Reg → Nibble → Instr)
    (hf : ∀ x y n, (f x y n).wellFormed = true ∧ encode (f x y n) = packXY p x y n ∧
      (f x y n).tableRow = k) : OpcodeRow.Encodes ⟨k, 0xF000, packA p 0⟩ := by
  intro w h
  obtain ⟨hwf, henc, hrow⟩ := hf (fieldX w) (fieldY w) (fieldN w)
  have hop : fieldOp w = p := (and_maskOp_iff w p).1 (masked_of_holds h)
  exact ⟨_, hwf, henc.trans (hop ▸ packXY_fields w), hrow⟩

/-- A row of format `XY`, whose low nibble is fixed. -/
theorem OpcodeRow.encodes_XY (p n : Nibble) (f : Reg → Reg → Instr)
    (hf : ∀ x y, (f x y).wellFormed = true ∧ encode (f x y) = packXY p x y n ∧
      (f x y).tableRow = k) : OpcodeRow.Encodes ⟨k, 0xF00F, packA p (n.setWidth 12)⟩ := by
  intro w h
  obtain ⟨hwf, henc, hrow⟩ := hf (fieldX w) (fieldY w)
  obtain ⟨hop, hn⟩ := (and_maskOpN_iff w p n).1 (masked_of_holds h)
  exact ⟨_, hwf, henc.trans (hop ▸ hn ▸ packXY_fields w), hrow⟩

/-- A row of format `XS`, whose low byte is fixed. -/
theorem OpcodeRow.encodes_XS (p : Nibble) (kk : Byte) (f : Reg → Instr)
    (hf : ∀ x, (f x).wellFormed = true ∧ encode (f x) = packXK p x kk ∧ (f x).tableRow = k) :
    OpcodeRow.Encodes ⟨k, 0xF0FF, packA p (kk.setWidth 12)⟩ := by
  intro w h
  obtain ⟨hwf, henc, hrow⟩ := hf (fieldX w)
  obtain ⟨hop, hkk⟩ := (and_maskOpKk_iff w p kk).1 (masked_of_holds h)
  exact ⟨_, hwf, henc.trans (hop ▸ hkk ▸ packXK_fields w), hrow⟩

end

open OpcodeRow in
/-- Row by row of R71: the format of the row and the instruction that takes the operands. -/
theorem opcodeMap_encodes : ∀ r ∈ opcodeMap, r.Encodes := by
  simp only [opcodeMap, List.cons_append, List.nil_append, List.forall_mem_cons]
  exact ⟨encodes_sysNnn,
    encodes_word .cls ⟨rfl, rfl, rfl⟩,
    encodes_word .ret ⟨rfl, rfl, rfl⟩,
    encodes_A 0x1 .jpNnn fun _ => ⟨rfl, rfl, rfl⟩,
    encodes_A 0x2 .callNnn fun _ => ⟨rfl, rfl, rfl⟩,
    encodes_XK 0x3 .seVxKk fun _ _ => ⟨rfl, rfl, rfl⟩,
    encodes_XK 0x4 .sneVxKk fun _ _ => ⟨rfl, rfl, rfl⟩,
    encodes_XYN 0x5 .seVxVy fun _ _ _ => ⟨rfl, rfl, rfl⟩,
    encodes_XK 0x6 .ldVxKk fun _ _ => ⟨rfl, rfl, rfl⟩,
    encodes_XK 0x7 .addVxKk fun _ _ => ⟨rfl, rfl, rfl⟩,
    encodes_XY 0x8 0x0 .ldVxVy fun _ _ => ⟨rfl, rfl, rfl⟩,
    encodes_XY 0x8 0x1 .orVxVy fun _ _ => ⟨rfl, rfl, rfl⟩,
    encodes_XY 0x8 0x2 .andVxVy fun _ _ => ⟨rfl, rfl, rfl⟩,
    encodes_XY 0x8 0x3 .xorVxVy fun _ _ => ⟨rfl, rfl, rfl⟩,
    encodes_XY 0x8 0x4 .addVxVy fun _ _ => ⟨rfl, rfl, rfl⟩,
    encodes_XY 0x8 0x5 .subVxVy fun _ _ => ⟨rfl, rfl, rfl⟩,
    encodes_XY 0x8 0x6 .shrVxVy fun _ _ => ⟨rfl, rfl, rfl⟩,
    encodes_XY 0x8 0x7 .subnVxVy fun _ _ => ⟨rfl, rfl, rfl⟩,
    encodes_XY 0x8 0xE .shlVxVy fun _ _ => ⟨rfl, rfl, rfl⟩,
    encodes_XYN 0x9 .sneVxVy fun _ _ _ => ⟨rfl, rfl, rfl⟩,
    encodes_A 0xA .ldINnn fun _ => ⟨rfl, rfl, rfl⟩,
    encodes_A 0xB .jpV0Nnn fun _ => ⟨rfl, rfl, rfl⟩,
    encodes_XK 0xC .rndVxKk fun _ _ => ⟨rfl, rfl, rfl⟩,
    encodes_XYN 0xD .drwVxVyN fun _ _ _ => ⟨rfl, rfl, rfl⟩,
    encodes_XS 0xE 0x9E .skpVx fun _ => ⟨rfl, rfl, rfl⟩,
    encodes_XS 0xE 0xA1 .sknpVx fun _ => ⟨rfl, rfl, rfl⟩,
    encodes_XS 0xF 0x07 .ldVxDt fun _ => ⟨rfl, rfl, rfl⟩,
    encodes_XS 0xF 0x0A .ldVxK fun _ => ⟨rfl, rfl, rfl⟩,
    encodes_XS 0xF 0x15 .ldDtVx fun _ => ⟨rfl, rfl, rfl⟩,
    encodes_XS 0xF 0x18 .ldStVx fun _ => ⟨rfl, rfl, rfl⟩,
    encodes_XS 0xF 0x1E .addIVx fun _ => ⟨rfl, rfl, rfl⟩,
    encodes_XS 0xF 0x29 .ldFVx fun _ => ⟨rfl, rfl, rfl⟩,
    encodes_XS 0xF 0x33 .ldBVx fun _ => ⟨rfl, rfl, rfl⟩,
    encodes_XS 0xF 0x55 .ldMemVx fun _ => ⟨rfl, rfl, rfl⟩,
    encodes_XS 0xF 0x65 .ldVxMem fun _ => ⟨rfl, rfl, rfl⟩,
    fun _ h => absurd h List.not_mem_nil⟩

/-- A row is found by its number. -/
theorem eq_of_number_eq {r r' : OpcodeRow} (hr : r ∈ opcodeMap) (hr' : r' ∈ opcodeMap)
    (h : r.number = r'.number) : r = r' := by
  have hall : ∀ r ∈ opcodeMap, ∀ r' ∈ opcodeMap, r.number = r'.number → r = r' := by decide
  exact hall r hr r' hr' h

open Laws in
/-- The laws of Laws/PerInstr.lean, for every instruction. -/
theorem encodeInOwnRow : ∀ i : Instr, EncodeInOwnRow.Statement i
  | .sysNnn nnn => EncodeInOwnRow.sysNnn nnn
  | .cls => EncodeInOwnRow.cls
  | .ret => EncodeInOwnRow.ret
  | .jpNnn nnn => EncodeInOwnRow.jpNnn nnn
  | .callNnn nnn => EncodeInOwnRow.callNnn nnn
  | .seVxKk x kk => EncodeInOwnRow.seVxKk x kk
  | .sneVxKk x kk => EncodeInOwnRow.sneVxKk x kk
  | .seVxVy x y n => EncodeInOwnRow.seVxVy x y n
  | .ldVxKk x kk => EncodeInOwnRow.ldVxKk x kk
  | .addVxKk x kk => EncodeInOwnRow.addVxKk x kk
  | .ldVxVy x y => EncodeInOwnRow.ldVxVy x y
  | .orVxVy x y => EncodeInOwnRow.orVxVy x y
  | .andVxVy x y => EncodeInOwnRow.andVxVy x y
  | .xorVxVy x y => EncodeInOwnRow.xorVxVy x y
  | .addVxVy x y => EncodeInOwnRow.addVxVy x y
  | .subVxVy x y => EncodeInOwnRow.subVxVy x y
  | .shrVxVy x y => EncodeInOwnRow.shrVxVy x y
  | .subnVxVy x y => EncodeInOwnRow.subnVxVy x y
  | .shlVxVy x y => EncodeInOwnRow.shlVxVy x y
  | .sneVxVy x y n => EncodeInOwnRow.sneVxVy x y n
  | .ldINnn nnn => EncodeInOwnRow.ldINnn nnn
  | .jpV0Nnn nnn => EncodeInOwnRow.jpV0Nnn nnn
  | .rndVxKk x kk => EncodeInOwnRow.rndVxKk x kk
  | .drwVxVyN x y n => EncodeInOwnRow.drwVxVyN x y n
  | .skpVx x => EncodeInOwnRow.skpVx x
  | .sknpVx x => EncodeInOwnRow.sknpVx x
  | .ldVxDt x => EncodeInOwnRow.ldVxDt x
  | .ldVxK x => EncodeInOwnRow.ldVxK x
  | .ldDtVx x => EncodeInOwnRow.ldDtVx x
  | .ldStVx x => EncodeInOwnRow.ldStVx x
  | .addIVx x => EncodeInOwnRow.addIVx x
  | .ldFVx x => EncodeInOwnRow.ldFVx x
  | .ldBVx x => EncodeInOwnRow.ldBVx x
  | .ldMemVx x => EncodeInOwnRow.ldMemVx x
  | .ldVxMem x => EncodeInOwnRow.ldVxMem x

/-- Settles O8: a word of a row is encoded by an instruction of the row, to which it decodes
(`opcodeMap_encodes`, `decodeWord_encode`); and what a word decodes to encodes it (O7), in its own
row. -/
theorem decodeFollowsOpcodeMap : Obligations.DecodeFollowsOpcodeMap := by
  intro w r hr
  constructor
  · intro hholds
    obtain ⟨i, hwf, rfl, hrow⟩ := opcodeMap_encodes r hr w hholds
    exact ⟨i, decodeWord_encode i hwf, hrow⟩
  · rintro ⟨i, hdec, hrow⟩
    obtain ⟨rfl, hwf⟩ := encodeOfDecodeIsIdentity w i hdec
    obtain ⟨r', hr', hnumber, hholds⟩ := encodeInOwnRow i hwf
    have hsame : r' = r := eq_of_number_eq hr' hr (hnumber.trans hrow)
    exact hsame ▸ hholds

/-! ### Unassigned subcodes -/

theorem decodeFamily0_ne_unassigned (w v : Word) : decodeFamily0 w ≠ .unassigned v := by
  unfold decodeFamily0
  split
  · simp
  · split <;> simp

theorem decodeFamily8_eq_unassigned (w : Word) :
    decodeFamily8 w = .unassigned w ↔ w.toNat % 16 ∈ [0x8, 0x9, 0xA, 0xB, 0xC, 0xD, 0xF] := by
  rw [← toNat_fieldN]
  unfold decodeFamily8
  generalize fieldN w = n
  rcases nibble_cases n with h | h <;>
    simp only [List.mem_cons, List.not_mem_nil, or_false] at h <;>
    rcases h with rfl | rfl | rfl | rfl | rfl | rfl | rfl | rfl <;> simp

theorem decodeFamilyE_eq_unassigned (w : Word) :
    decodeFamilyE w = .unassigned w ↔ w.toNat % 256 ∉ [0x9E, 0xA1] := by
  rw [← toNat_fieldKk]
  unfold decodeFamilyE
  split
  case h_3 h1 h2 => simp_all [← BitVec.toNat_inj]
  all_goals next hkk => simp [hkk]

theorem decodeFamilyF_eq_unassigned (w : Word) :
    decodeFamilyF w = .unassigned w ↔
      w.toNat % 256 ∉ [0x07, 0x0A, 0x15, 0x18, 0x1E, 0x29, 0x33, 0x55, 0x65] := by
  rw [← toNat_fieldKk]
  unfold decodeFamilyF
  split
  case h_10 => simp_all [← BitVec.toNat_inj]
  all_goals next hkk => simp [hkk]

/-- Settles O9: only families 8, E and F answer `unassigned`, each by its own subcode. -/
theorem unassignedSubcodesExactly : Obligations.UnassignedSubcodesExactly := by
  intro w
  have hop : (fieldOp w).toNat = w.toNat / 4096 := (wordFieldsAreBitRanges w).1
  rw [← hop]
  unfold decodeWord
  split
  case h_1 h => simp [h, decodeFamily0_ne_unassigned]
  case h_9 h => simp [h, decodeFamily8_eq_unassigned]
  case h_15 h => simp [h, decodeFamilyE_eq_unassigned]
  case h_16 =>
    have h : fieldOp w = 0xF := by
      have hnibble := nibble_cases (fieldOp w)
      simp_all
    simp [h, decodeFamilyF_eq_unassigned]
  all_goals next h => simp [h]

end Sys2Proof
end

section
/-! O19, O22, O23, O26: SYS, JP V0, CALL, and the skips on two registers (spec/41_control_flow.md
R91, R94, R95, R98, R99). -/

namespace Sys2Proof.Machine

variable (s : State)

/-! ### SYS and JP V0 -/

theorem exec_sysNnn (nnn : Addr12) : exec (.sysNnn nnn) s = .next s := rfl

/-- Settles O19: the handler answers the state it was given. -/
theorem sysIsNoOp : Obligations.SysIsNoOp := fun nnn s =>
  ⟨_, exec_sysNnn s nnn, Frame.refl s _ _⟩

theorem exec_jpV0Nnn (nnn : Addr12) :
    exec (.jpV0Nnn nnn) s = .next (s.setPc (addrOf nnn + (s.getV 0).setWidth 16)) := rfl

/-- A byte widened to a word keeps its value (R10). -/
@[simp] theorem toNat_setWidth_byte (b : Byte) : (b.setWidth 16).toNat = b.toNat :=
  BitVec.toNat_setWidth_of_le (by decide)

/-- The sum of an address and a byte is below 2^16, so 16 bits hold it (R94, D7). -/
theorem toNat_addrOf_add_byte (nnn : Addr12) (b : Byte) :
    (addrOf nnn + b.setWidth 16).toNat = nnn.toNat + b.toNat := by
  rw [BitVec.toNat_add, toNat_addrOf, toNat_setWidth_byte]
  omega

/-- Settles O22: one jump, to a sum that does not wrap. -/
theorem jumpV0AddsWithoutMask : Obligations.JumpV0AddsWithoutMask := fun nnn s =>
  ⟨_, exec_jpV0Nnn s nnn, toNat_addrOf_add_byte nnn _, frame_setPc s _⟩

/-! ### CALL -/

theorem State.push_of_lt (h : s.sp.val < 16) (w : Word) :
    s.push w = some { s with stack := s.stack.set s.sp.val w, sp := ⟨s.sp.val + 1, by omega⟩ } :=
  dif_pos h

/-- A push writes the stack and moves SP. -/
theorem frame_push {w : Word} {t : State} (h : s.push w = some t) : Frame [.stack] [] s t := by
  obtain ⟨_, rfl⟩ := s.push_eq_some h
  exact { Frame.refl s [.stack] [] with stack := fun hp => absurd (by simp) hp }

theorem exec_callNnn_of_push {nnn : Addr12} {t : State} (h : s.push s.pc = some t) :
    exec (.callNnn nnn) s = .next (t.setPc (addrOf nnn)) := by
  simp [exec, execCallNnn, h]

theorem exec_callNnn_of_push_none {nnn : Addr12} (h : s.push s.pc = none) :
    exec (.callNnn nnn) s = raise .stackOverflow (.callNnn nnn) s := by
  simp [exec, execCallNnn, h]

/-- Settles O23: CALL follows `State.push`, which fills the slot at SP exactly when SP is below 16. -/
theorem callPushesOrOverflows : Obligations.CallPushesOrOverflows := by
  intro nnn s
  refine ⟨fun hroom => ?_, fun hfull => ?_⟩
  · have hpush := s.push_of_lt hroom s.pc
    refine ⟨_, exec_callNnn_of_push s hpush, rfl, ?_, fun k hk hne => ?_, toNat_addrOf nnn,
      (frame_push s hpush).setPc_of_stack _⟩
    · exact Vector.getElem_set_self _
    · exact Vector.getElem_set_ne hroom hk (Ne.symm hne)
  · exact exec_callNnn_of_push_none s (s.push_eq_none.2 hfull)

/-! ### SE and SNE of two registers -/

theorem exec_seVxVy (x y : Reg) (n : Nibble) :
    exec (.seVxVy x y n) s = .next (s.skipIf (s.getV x == s.getV y)) := rfl

theorem exec_sneVxVy (x y : Reg) (n : Nibble) :
    exec (.sneVxVy x y n) s = .next (s.skipIf (s.getV x != s.getV y)) := rfl

/-- Settles O26: both are one conditional skip, on the comparison and on its negation. -/
theorem skipOnRegisters : Obligations.SkipOnRegisters := by
  intro x y n s
  refine ⟨⟨_, exec_seVxVy s x y n, ?_, frame_skipIf s _⟩,
    ⟨_, exec_sneVxVy s x y n, ?_, frame_skipIf s _⟩⟩
  · simp only [State.toNat_pc_skipIf, beq_iff_eq]
  · simp only [State.toNat_pc_skipIf, bne_iff_ne, ite_not]

end Sys2Proof.Machine
end

section
/-! O29, O30, O31: addition, subtraction and shifts (spec/42_alu.md R113 to R117). Every handler
here is one `State.setResultFlag`. -/

namespace Sys2Proof.Machine

variable (s : State)

/-! ### Result and flag -/

theorem State.getV_setResultFlag_regF (x : Reg) (b c : Byte) :
    (s.setResultFlag x b c).getV regF = c := by simp

theorem State.getV_setResultFlag_of_ne {x : Reg} (h : x ≠ regF) (b c : Byte) :
    (s.setResultFlag x b c).getV x = b := by simp [h.symm]

theorem toNat_flagByte (c : Bool) : (flagByte c).toNat = if c then 1 else 0 := by
  cases c <;> rfl

theorem toNat_addFlag (a b : Byte) :
    (addFlag a b).toNat = if 255 < a.toNat + b.toNat then 1 else 0 := by
  simp only [addFlag, toNat_flagByte, decide_eq_true_eq]

/-- The difference narrowed to 8 bits, as a number (R114). -/
theorem toNat_subResult (a b : Byte) :
    (subResult a b).toNat = (a.toNat + 256 - b.toNat) % 256 := by
  rw [subResult, BitVec.toNat_ofInt]
  omega

theorem toNat_subFlag (a b : Byte) :
    (subFlag a b).toNat = if b.toNat ≤ a.toNat then 1 else 0 := by
  simp only [subFlag, toNat_flagByte, decide_eq_true_eq]

theorem toNat_shrResult (a : Byte) : (shrResult a).toNat = a.toNat / 2 := by
  rw [shrResult, BitVec.toNat_ushiftRight, Nat.shiftRight_eq_div_pow, pow_one]

theorem toNat_shlResult (a : Byte) : (shlResult a).toNat = 2 * a.toNat % 256 := by
  rw [shlResult, BitVec.toNat_shiftLeft, Nat.shiftLeft_eq, pow_one, Nat.mul_comm]

/-- A bit as a flag is that bit of the number. -/
theorem toNat_flagByte_getLsbD (a : Byte) (k : Nat) :
    (flagByte (a.getLsbD k)).toNat = a.toNat / 2 ^ k % 2 := by
  rw [toNat_flagByte, BitVec.getLsbD, Nat.testBit_eq_decide_div_mod_eq]
  simp only [decide_eq_true_eq]
  split <;> omega

theorem toNat_shrFlag (a : Byte) : (shrFlag a).toNat = a.toNat % 2 := by
  rw [shrFlag, toNat_flagByte_getLsbD, pow_zero, Nat.div_one]

theorem toNat_shlFlag (a : Byte) : (shlFlag a).toNat = a.toNat / 128 := by
  rw [shlFlag, toNat_flagByte_getLsbD]
  omega

/-! ### The handlers -/

theorem exec_addVxVy (x y : Reg) : exec (.addVxVy x y) s =
    .next (s.setResultFlag x (addResult (s.getV x) (s.getV y))
      (addFlag (s.getV x) (s.getV y))) := rfl

theorem exec_subVxVy (x y : Reg) : exec (.subVxVy x y) s =
    .next (s.setResultFlag x (subResult (s.getV x) (s.getV y))
      (subFlag (s.getV x) (s.getV y))) := rfl

theorem exec_subnVxVy (x y : Reg) : exec (.subnVxVy x y) s =
    .next (s.setResultFlag x (subResult (s.getV y) (s.getV x))
      (subFlag (s.getV y) (s.getV x))) := rfl

/-- With `SHIFT_USES_VY = false` the shifted value is V[x] (D15). -/
theorem exec_shrVxVy (x y : Reg) : exec (.shrVxVy x y) s =
    .next (s.setResultFlag x (shrResult (s.getV x)) (shrFlag (s.getV x))) := rfl

/-- With `SHIFT_USES_VY = false` the shifted value is V[x] (D15). -/
theorem exec_shlVxVy (x y : Reg) : exec (.shlVxVy x y) s =
    .next (s.setResultFlag x (shlResult (s.getV x)) (shlFlag (s.getV x))) := rfl

/-- What the five handlers leave in V[x], in VF and elsewhere, given result and flag as numbers. -/
theorem setResultFlag_spec (x : Reg) {result flag : Byte} {r f : Nat} (hr : result.toNat = r)
    (hf : flag.toNat = f) :
    (x ≠ regF → ((s.setResultFlag x result flag).getV x).toNat = r) ∧
    ((s.setResultFlag x result flag).getV regF).toNat = f ∧
    Frame [.v x, .v regF] [] s (s.setResultFlag x result flag) := by
  refine ⟨fun hx => ?_, ?_, frame_setResultFlag s x _ _⟩
  · rw [s.getV_setResultFlag_of_ne hx, hr]
  · rw [s.getV_setResultFlag_regF, hf]

/-- Settles O29, with result and flag of `addResult` and `addFlag`. -/
theorem addRegistersSumAndCarry : Obligations.AddRegistersSumAndCarry := fun x y s =>
  ⟨_, exec_addVxVy s x y, setResultFlag_spec s x (toNat_addResult _ _) (toNat_addFlag _ _)⟩

/-- Settles O30: SUBN is SUB with the operands exchanged. -/
theorem subtractDifferenceAndNoBorrow : Obligations.SubtractDifferenceAndNoBorrow := fun x y s =>
  ⟨⟨_, exec_subVxVy s x y, setResultFlag_spec s x (toNat_subResult _ _) (toNat_subFlag _ _)⟩,
    ⟨_, exec_subnVxVy s x y, setResultFlag_spec s x (toNat_subResult _ _) (toNat_subFlag _ _)⟩⟩

/-- Settles O31: the flag is bit 0 of V[x] or bit 7, read before the shift. -/
theorem shiftsByOneAndFlag : Obligations.ShiftsByOneAndFlag := fun x y s =>
  ⟨⟨_, exec_shrVxVy s x y, setResultFlag_spec s x (toNat_shrResult _) (toNat_shrFlag _)⟩,
    ⟨_, exec_shlVxVy s x y, setResultFlag_spec s x (toNat_shlResult _) (toNat_shlFlag _)⟩⟩

end Sys2Proof.Machine
end

section
/-! O33, O34, O35, O37: ADD I and the stores (spec/43_index_memory.md R127, R129, R130, R132). -/

namespace Sys2Proof.Machine

variable (s : State)

/-! ### ADD I -/

theorem exec_addIVx (x : Reg) :
    exec (.addIVx x) s = .next (s.setI (s.i + (s.getV x).setWidth 16)) := rfl

/-- Settles O33: one write of I; the frame has no register. -/
theorem addIndexWrapsWithoutFlag : Obligations.AddIndexWrapsWithoutFlag := by
  intro x s
  refine ⟨_, exec_addIVx s x, ?_, frame_setI s _⟩
  rw [State.setI_i, BitVec.toNat_add, toNat_setWidth_byte]

/-! ### LD B -/

/-- The state after LD B whose addresses may all be written (R129). -/
def State.storeBcd (x : Reg) : State :=
  { s with mem := Memory.writeBytes s.mem s.i.toNat (bcdDigits (s.getV x)) }

/-- The digits as numbers: each is below 10, so a byte holds it. -/
theorem map_toNat_bcdDigits (b : Byte) :
    (bcdDigits b).map BitVec.toNat = [b.toNat / 100, b.toNat / 10 % 10, b.toNat % 10] := by
  simp only [bcdDigits, List.map_cons, List.map_nil, BitVec.toNat_ofNat, List.cons.injEq, and_true]
  omega

/-- The three digits, each at its place from I on. -/
theorem State.toNat_readByte_storeBcd (x : Reg) {k : Nat} (hk : k < 3) :
    ((s.storeBcd x).readByte (s.i.toNat + k)).toNat =
      [(s.getV x).toNat / 100, (s.getV x).toNat / 10 % 10, (s.getV x).toNat % 10][k] := by
  simp only [← map_toNat_bcdDigits, List.getElem_map]
  exact congrArg _ (Memory.read_writeBytes_of_lt _ _ _ _ _)

theorem frame_storeBcd (x : Reg) :
    Frame [] ((List.range 3).map (s.i.toNat + ·)) s (s.storeBcd x) :=
  frame_writeBytes s s.i.toNat (bcdDigits (s.getV x))

theorem exec_ldBVx_of_writable {x : Reg} (h : 0x1FF < s.i.toNat ∧ s.i.toNat + 2 < 4096) :
    exec (.ldBVx x) s = .next (s.storeBcd x) := by
  have hpass : firstFailing writeCheck s.i.toNat 3 = none :=
    (firstFailing_writeCheck_none (by decide)).2 (by omega)
  simp only [exec, execLdBVx, hpass, State.storeBcd]

theorem exec_ldBVx_of_reserved {x : Reg} (h : s.i.toNat ≤ 0x1FF) :
    exec (.ldBVx x) s = raise (.reservedWrite s.i.toNat) (.ldBVx x) s := by
  have hfail := firstFailing_writeCheck_reserved (n := 3) (by decide) h
  simp only [exec, execLdBVx, hfail]

theorem exec_ldBVx_of_outOfMemory {x : Reg} (h : 4096 ≤ s.i.toNat + 2) :
    exec (.ldBVx x) s = raise (.addressOutOfRange (max s.i.toNat 4096)) (.ldBVx x) s := by
  have hfail := firstFailing_writeCheck_out (base := s.i.toNat) (n := 3) (by decide) (by omega)
    (by omega)
  simp only [exec, execLdBVx, hfail]

/-- Settles O34: `State.storeBcd` above the reserved area and in memory, else the first failing
check. -/
theorem bcdStoresDigitsOrFails : Obligations.BcdStoresDigitsOrFails := by
  intro x s
  refine ⟨fun hlow hhigh => ?_, exec_ldBVx_of_reserved s, exec_ldBVx_of_outOfMemory s⟩
  exact ⟨_, exec_ldBVx_of_writable s ⟨hlow, hhigh⟩,
    s.toNat_readByte_storeBcd x (k := 0) (by decide),
    s.toNat_readByte_storeBcd x (k := 1) (by decide),
    s.toNat_readByte_storeBcd x (k := 2) (by decide), frame_storeBcd s x⟩

/-! ### LD [I], VX -/

/-- The state after LD [I], VX whose addresses may all be written (R130). -/
def State.storeBlock (x : Reg) : State :=
  { s with
    mem := Memory.writeBytes s.mem s.i.toNat (s.regsUpTo x)
    i := indexAfterTransfer s.i x }

theorem State.readByte_storeBlock {x k : Reg} (h : k ≤ x) :
    (s.storeBlock x).readByte (s.i.toNat + k.val) = s.getV k := by
  have hlen : k.val < (s.regsUpTo x).length := by
    rw [State.length_regsUpTo]; exact Nat.lt_succ_of_le h
  exact (Memory.read_writeBytes_of_lt _ _ _ _ hlen).trans (s.getElem_regsUpTo x k.val hlen)

theorem frame_storeBlock (x : Reg) :
    Frame [.i] ((List.range (x.val + 1)).map (s.i.toNat + ·)) s (s.storeBlock x) := by
  have hstore := frame_writeBytes s s.i.toNat (s.regsUpTo x)
  rw [State.length_regsUpTo] at hstore
  exact (hstore.mono (by simp) fun _ => id).trans ((frame_setI _ _).mono (fun _ => id) (by simp))

theorem exec_ldMemVx_of_writable {x : Reg} (h : 0x1FF < s.i.toNat ∧ s.i.toNat + x.val < 4096) :
    exec (.ldMemVx x) s = .next (s.storeBlock x) := by
  have hpass : firstFailing writeCheck s.i.toNat (x.val + 1) = none :=
    (firstFailing_writeCheck_none (by omega)).2 (by omega)
  simp only [exec, execLdMemVx, hpass, State.storeBlock]

theorem exec_ldMemVx_of_reserved {x : Reg} (h : s.i.toNat ≤ 0x1FF) :
    exec (.ldMemVx x) s = raise (.reservedWrite s.i.toNat) (.ldMemVx x) s := by
  have hfail := firstFailing_writeCheck_reserved (Nat.succ_ne_zero x.val) h
  simp only [exec, execLdMemVx, hfail]

theorem exec_ldMemVx_of_outOfMemory {x : Reg} (hlow : 0x1FF < s.i.toNat)
    (h : 4096 ≤ s.i.toNat + x.val) :
    exec (.ldMemVx x) s = raise (.addressOutOfRange (max s.i.toNat 4096)) (.ldMemVx x) s := by
  have hfail := firstFailing_writeCheck_out (Nat.succ_ne_zero x.val) hlow (Nat.lt_succ_of_le h)
  simp only [exec, execLdMemVx, hfail]

/-- Settles O35: `State.storeBlock` above the reserved area and in memory, else the first failing
check. -/
theorem blockStoreOrFails : Obligations.BlockStoreOrFails := by
  intro x s
  refine ⟨fun hlow hhigh => ?_, exec_ldMemVx_of_reserved s,
    fun hout hlow => exec_ldMemVx_of_outOfMemory s hlow hout⟩
  have hframe := frame_storeBlock s x
  refine ⟨_, exec_ldMemVx_of_writable s ⟨hlow, hhigh⟩, fun k hk => s.readByte_storeBlock hk,
    toNat_indexAfterTransfer _ _, fun a ha => hframe.mem a ?_, hframe⟩
  simp only [List.mem_map, List.mem_range, not_exists, not_and]
  omega

/-- Settles O37: the load reads, from the same index, the bytes that the store wrote there. -/
theorem blockStoreThenLoadRoundTrips : Obligations.BlockStoreThenLoadRoundTrips := by
  intro x nnn s scrambled hi hlow hhigh
  have hindex (u : State) : (u.setI (addrOf nnn)).i.toNat = s.i.toNat := by
    rw [State.setI_i, toNat_addrOf, hi]
  refine ⟨_, _, _, exec_ldMemVx_of_writable s (by omega), exec_ldINnn _ nnn,
    exec_ldVxMem_of_inMemory _ (by rw [hindex]; omega), fun k hk => ?_, ?_⟩
  · rw [State.getV_loadBlock, if_pos hk, hindex]
    exact s.readByte_storeBlock hk
  · refine (toNat_indexAfterTransfer _ _).trans ?_
    rw [hindex]; omega

end Sys2Proof.Machine
end

section
/-! O40, O41: drawing (and the lemmas of O42) (spec/44_display.md R135 to R137). -/

namespace Sys2Proof.Machine

variable (s : State) (x y : Reg) (n : Nibble)

/-- The framebuffer and the collision flag after DRW draws its rows (R136). -/
def State.drawn : Framebuffer × Bool :=
  drawRows (s.getV x).toNat (s.getV y).toNat (Memory.readBytes s.mem s.i.toNat n.toNat)
    (s.fb, false)

/-- The state after DRW whose rows are all in memory (R136). -/
def State.drawSprite : State :=
  { s.setV regF (flagByte (s.drawn x y n).2) with fb := (s.drawn x y n).1, dirty := true }

@[simp] theorem State.getV_drawSprite (k : Reg) :
    (s.drawSprite x y n).getV k = if regF = k then flagByte (s.drawn x y n).2 else s.getV k :=
  s.getV_setV regF k _

theorem frame_drawSprite : Frame [.v regF, .fb, .dirty] [] s (s.drawSprite x y n) :=
  { Frame.refl s [.v regF, .fb, .dirty] [] with
    v := fun k hk => by
      have hne : regF ≠ k := fun h => hk (by simp [h])
      rw [State.getV_drawSprite, if_neg hne]
    fb := fun h => absurd (by simp) h
    dirty := fun h => absurd (by simp) h }

theorem exec_drwVxVyN_of_inMemory {x y : Reg} {n : Nibble}
    (h : ∀ r, r < n.toNat → s.i.toNat + r < 4096) :
    exec (.drwVxVyN x y n) s = .next (s.drawSprite x y n) := by
  have hpass : firstFailing readCheck s.i.toNat n.toNat = none :=
    firstFailing_eq_none.2 fun r hr => readCheck_eq_none.2 (h r hr)
  simp only [exec, execDrwVxVyN, hpass, State.drawSprite, State.drawn]

theorem exec_drwVxVyN_of_outOfMemory {x y : Reg} {n : Nibble} (hn : n.toNat ≠ 0)
    (h : 4096 < s.i.toNat + n.toNat) : exec (.drwVxVyN x y n) s =
      raise (.addressOutOfRange (max s.i.toNat 4096)) (.drwVxVyN x y n) s := by
  have hfail := firstFailing_readCheck_some hn h
  simp only [exec, execDrwVxVyN, hfail]

/-! ### Pixels and collision -/

theorem onGrid_of_pixel_eq_some {fb : Framebuffer} {px py : Nat} {b : Bool}
    (h : pixel fb px py = some b) : pixelOnGrid px py := by
  by_contra hoff
  rw [pixel_offGrid fb hoff] at h
  cases h

theorem pixel_drawSprite_of_covers {px py : Nat} (h : spriteCovers s x y n px py) :
    pixel (s.drawSprite x y n).fb px py = (pixel s.fb px py).map (!·) := by
  have hcover := (rowsCover_readBytes s x y n px py).2 h
  refine ((drawRows_spec _ _ _ _).1 px py).trans ?_
  simp only [hcover, Bool.xor_true]

theorem pixel_drawSprite_of_not_covers {px py : Nat} (h : ¬ spriteCovers s x y n px py) :
    pixel (s.drawSprite x y n).fb px py = pixel s.fb px py := by
  have hcover := Bool.eq_false_iff.2 (mt (rowsCover_readBytes s x y n px py).1 h)
  refine ((drawRows_spec _ _ _ _).1 px py).trans ?_
  simp only [hcover, Bool.xor_false, Option.map_id']

/-- The sprite covers a pixel of the grid that is 1 (R136). -/
def Collides : Prop :=
  ∃ px py, px < 64 ∧ py < 32 ∧ spriteCovers s x y n px py ∧ pixel s.fb px py = some true

/-- The flag of the loops is the collision; a pixel that is 1 lies on the grid. -/
theorem drawn_snd_iff : (s.drawn x y n).2 = true ↔ Collides s x y n := by
  refine (drawRows_spec _ _ _ _).2.trans ?_
  simp only [Bool.false_eq_true, false_or, rowsCover_readBytes]
  constructor
  · rintro ⟨px, py, hcover, hpix⟩
    obtain ⟨hx, hy⟩ := onGrid_of_pixel_eq_some hpix
    exact ⟨px, py, hx, hy, hcover, hpix⟩
  · rintro ⟨px, py, -, -, hcover, hpix⟩
    exact ⟨px, py, hcover, hpix⟩

theorem getV_regF_drawSprite_of_collides (h : Collides s x y n) :
    (s.drawSprite x y n).getV regF = 1 := by
  rw [State.getV_drawSprite, if_pos rfl, (drawn_snd_iff s x y n).2 h]; rfl

theorem getV_regF_drawSprite_of_not_collides (h : ¬ Collides s x y n) :
    (s.drawSprite x y n).getV regF = 0 := by
  rw [State.getV_drawSprite, if_pos rfl, Bool.eq_false_iff.2 (mt (drawn_snd_iff s x y n).1 h)]; rfl

/-- Settles O40: `State.drawSprite`, pixel by pixel, with VF by the collision. -/
theorem drawXorsCoveredPixels : Obligations.DrawXorsCoveredPixels := fun x y n s hin =>
  ⟨_, exec_drwVxVyN_of_inMemory s hin,
    fun _ _ _ _ => ⟨pixel_drawSprite_of_covers s x y n, pixel_drawSprite_of_not_covers s x y n⟩,
    getV_regF_drawSprite_of_collides s x y n, getV_regF_drawSprite_of_not_collides s x y n,
    rfl, frame_drawSprite s x y n⟩

/-- Settles O41: the checks come before the drawing, so the first failing address is the error's. -/
theorem drawOutOfMemoryFails : Obligations.DrawOutOfMemoryFails := fun _ _ _ s hn hout =>
  exec_drwVxVyN_of_outOfMemory s hn hout

/-! ### Drawing twice -/

/-- With x and y other than F, a draw leaves the place and the bytes of the sprite. -/
theorem spriteCovers_drawSprite {x y : Reg} (hx : x ≠ regF) (hy : y ≠ regF) (px py : Nat) :
    spriteCovers (s.drawSprite x y n) x y n px py ↔ spriteCovers s x y n px py := by
  simp only [spriteCovers, State.getV_drawSprite, if_neg hx.symm, if_neg hy.symm]
  rfl

/-- Two draws at the same place flip each covered pixel twice. -/
theorem fb_drawSprite_drawSprite {x y : Reg} (hx : x ≠ regF) (hy : y ≠ regF) :
    ((s.drawSprite x y n).drawSprite x y n).fb = s.fb := by
  refine framebuffer_ext fun px py _ _ => ?_
  by_cases h : spriteCovers s x y n px py
  · have h' := (spriteCovers_drawSprite s n hx hy px py).2 h
    rw [pixel_drawSprite_of_covers _ _ _ _ h', pixel_drawSprite_of_covers _ _ _ _ h, Option.map_map]
    cases pixel s.fb px py <;> simp
  · have h' := mt (spriteCovers_drawSprite s n hx hy px py).1 h
    rw [pixel_drawSprite_of_not_covers _ _ _ _ h', pixel_drawSprite_of_not_covers _ _ _ _ h]

/-- The second draw collides where the first one set a pixel, which was 0 before it (C12). -/
theorem collides_drawSprite_iff {x y : Reg} (hx : x ≠ regF) (hy : y ≠ regF) :
    Collides (s.drawSprite x y n) x y n ↔
      ∃ px py, px < 64 ∧ py < 32 ∧ spriteCovers s x y n px py ∧ pixel s.fb px py = some false := by
  unfold Collides
  simp only [spriteCovers_drawSprite s n hx hy]
  refine exists₂_congr fun px py => and_congr_right fun _ => and_congr_right fun _ =>
    and_congr_right fun hcover => ?_
  rw [pixel_drawSprite_of_covers s x y n hcover]
  cases pixel s.fb px py <;> simp

theorem getV_regF_drawSprite_eq_one_iff :
    (s.drawSprite x y n).getV regF = 1 ↔ Collides s x y n := by
  refine ⟨fun h => ?_, getV_regF_drawSprite_of_collides s x y n⟩
  by_contra hno
  rw [getV_regF_drawSprite_of_not_collides s x y n hno] at h
  cases h

end Sys2Proof.Machine
end

section
/-! O12, O13, O14, O18, O55, O1, O2: the cycle driver and the reset state (spec/40_cycle_driver.md
R81 to R87, spec/10_state.md R32). -/

namespace Sys2Proof.Machine

/-! ### Reset -/

theorem State.reset_readByte (a : Nat) : State.reset.readByte a = resetByte a := rfl

/-- The font has 80 bytes, and every byte after it is 0 (R32, R33). -/
theorem resetByte_of_font_le {a : Nat} (h : 80 ≤ a) : resetByte a = 0 := by
  rw [resetByte, List.getElem?_eq_none (show font.length ≤ a from h), Option.getD_none]

/-- Settles O1: memory by `resetByte`, the rest a constant vector or a literal. -/
theorem resetStateOfTheSpec : Obligations.ResetStateOfTheSpec := by
  refine ⟨fun a _ => State.reset_readByte a,
    fun a ha _ => (State.reset_readByte a).trans (resetByte_of_font_le ha),
    fun x => Vector.getElem_replicate x.isLt, rfl, rfl, rfl,
    fun k hk => Vector.getElem_replicate hk, rfl, rfl, fun _ _ => pixel_clearFramebuffer, rfl,
    fun k hk => ?_, rfl⟩
  simp [State.keyDown, State.reset, hk]

/-- Settles O2: the reset memory lists nothing. -/
theorem resetSatisfiesInvariant : Obligations.ResetSatisfiesInvariant where
  memWf := rfl
  reserved a _ := State.reset_readByte a

/-- Settles O55: the call gives the reset state but for the model's own draw number. -/
theorem initializeGivesReset : Obligations.InitializeGivesReset := fun _ => ⟨rfl, rfl⟩

/-! ### The parts of a step -/

/-- Settles O14: the two statuses other than Ready are refused by name. -/
theorem noStepUnlessReady : Obligations.NoStepUnlessReady := by
  intro s hs
  cases h : s.status with
  | ready => exact absurd h hs
  | failed e => simp [step, h]
  | unloadable => simp [step, h]

/-- A Ready machine's step on a fetched instruction is its handler on the advanced state (R86). -/
theorem step_of_instr {s : State} {w : Word} {i : Instr} (hs : s.status = .ready)
    (hw : s.fetch = .ok w) (hi : decodeWord w = .instr i) :
    step s = finishStep (exec i s.advance) := by
  rw [step_of_fetch s hs hw, dispatchWord_instr hi]

/-- The same on a fetched unassigned subcode, whose handler writes nothing (R72, R87). -/
theorem step_of_unassigned {s : State} {w v : Word} (hs : s.status = .ready)
    (hw : s.fetch = .ok w) (hv : decodeWord w = .unassigned v) :
    step s = .next s.advance.tick.nextDraw := by
  rw [step_of_fetch s hs hw, dispatchWord_unassigned hv]; rfl

theorem countDown_eq_ofNat (b : Byte) : countDown b = BitVec.ofNat 8 (b.toNat - 1) := by
  apply BitVec.eq_of_toNat_eq
  rw [toNat_countDown, BitVec.toNat_ofNat]; omega

/-- Tick and draw number as one update (R85). -/
theorem tick_nextDraw_eq (t : State) : t.tick.nextDraw = { t with
    dt := BitVec.ofNat 8 (t.dt.toNat - 1)
    st := BitVec.ofNat 8 (t.st.toNat - 1)
    drawCount := t.drawCount + 1 } := by
  rw [← countDown_eq_ofNat, ← countDown_eq_ofNat]; rfl

/-- Settles O12: the bytes at PC join to the fetched word, and `finishStep` ticks or passes the
error on. -/
theorem stepRunsDecodedInstruction : Obligations.StepRunsDecodedInstruction := by
  intro s i hs hpc hdec
  have hi : decodeWord (joinBytes (s.readByte s.pc.toNat) (s.readByte (s.pc.toNat + 1))) =
      .instr i :=
    congrArg Prod.fst (Except.ok.inj hdec)
  have hstep : step s = finishStep (exec i { s with pc := s.pc + 2 }) :=
    step_of_instr hs (s.fetch_ok hpc) hi
  refine ⟨fun t ht => ?_, fun e he => ?_⟩
  · rw [hstep, ht, finishStep, tick_nextDraw_eq]
  · rw [hstep, he, finishStep]

/-- A tick of both timers, the draw number apart (R85). -/
theorem frame_tick_nextDraw (t : State) :
    Frame [.dt, .st] [] t { t.tick.nextDraw with drawCount := t.drawCount } :=
  { Frame.refl t [.dt, .st] [] with
    dt := fun h => absurd (by simp) h
    st := fun h => absurd (by simp) h }

/-- Settles O13: the handler answers the advanced state, which the step ticks. -/
theorem unassignedSubcodeOnlyAdvances : Obligations.UnassignedSubcodeOnlyAdvances := by
  intro s w hs hw hdec
  refine ⟨_, step_of_unassigned hs hw hdec, rfl, toNat_countDown _, toNat_countDown _, ?_⟩
  have hadvance : Frame [.pc, .dt, .st] [] s s.advance :=
    (frame_setPc s (s.pc + 2)).mono (by simp) (by simp)
  exact hadvance.trans ((frame_tick_nextDraw s.advance).mono (by simp) (by simp))

/-! ### A word placed for the fetch -/

theorem toNat_tableWord {w : Nat} (h : w < 65536) : (tableWord 16 w).toNat = w := by
  rw [tableWord, BitVec.toNat_ofNat]; omega

theorem State.withFetchWord_eq_writeBytes {s : State} {w : Nat} (h : s.pc.toNat + 1 < 4096) :
    s.withFetchWord 16 w = { s with
      mem := Memory.writeBytes s.mem s.pc.toNat
        [fieldHi (tableWord 16 w), fieldKk (tableWord 16 w)] } := by
  rw [State.withFetchWord, Memory.storeWord, if_pos h]

/-- A word stored at PC, both bytes in memory, is what the fetch reads (R44, R82). -/
theorem State.fetch_withFetchWord {s : State} {w : Nat} (h : s.pc.toNat + 1 < 4096) :
    (s.withFetchWord 16 w).fetch = .ok (tableWord 16 w) := by
  have hbytes (k : Nat) (hk : k < 2) : (s.withFetchWord 16 w).readByte (s.pc.toNat + k) =
      [fieldHi (tableWord 16 w), fieldKk (tableWord 16 w)][k] := by
    rw [State.withFetchWord_eq_writeBytes h]
    exact Memory.read_writeBytes_of_lt _ _ _ _ _
  have hjoin := congrArg₂ joinBytes (hbytes 0 (by decide)) (hbytes 1 (by decide))
  exact ((s.withFetchWord 16 w).fetch_ok h).trans
    (congrArg Except.ok (hjoin.trans (joinBytes_fields _)))

/-- Settles O18: the two bytes at PC are written and read back. -/
theorem placedWordIsFetched : Obligations.PlacedWordIsFetched := by
  intro s w hpc hw
  refine ⟨⟨_, State.fetch_withFetchWord hpc, toNat_tableWord hw⟩, ?_⟩
  rw [State.withFetchWord_eq_writeBytes hpc]
  exact frame_writeBytes s s.pc.toNat [fieldHi (tableWord 16 w), fieldKk (tableWord 16 w)]

end Sys2Proof.Machine
end

section
/-! O43, O44, O45, O47: random, timers and keys (spec/45_random_timers_keys.md R138 to R145). -/

namespace Sys2Proof.Machine

variable (s : State) (x : Reg)

/-! ### RND -/

theorem exec_rndVxKk (kk : Byte) : exec (.rndVxKk x kk) s = .next (s.setV x (s.draw &&& kk)) := rfl

/-- Settles O43: one write of VX, by the word operation whose bits the library gives. -/
theorem randomIsDrawAndMask : Obligations.RandomIsDrawAndMask := by
  intro x kk s
  refine ⟨_, exec_rndVxKk s x kk, fun k => ?_, frame_setV s x _⟩
  rw [State.getV_setV_self, BitVec.getLsbD_and, State.draw]

/-! ### The timers -/

/-- DT written by a program (R141). -/
def State.setDt (b : Byte) : State := { s with dt := b }

/-- ST written by a program (R142). -/
def State.setSt (b : Byte) : State := { s with st := b }

theorem frame_setDt (b : Byte) : Frame [.dt] [] s (s.setDt b) :=
  { Frame.refl s [.dt] [] with dt := fun h => absurd (by simp) h }

theorem frame_setSt (b : Byte) : Frame [.st] [] s (s.setSt b) :=
  { Frame.refl s [.st] [] with st := fun h => absurd (by simp) h }

theorem exec_ldVxDt : exec (.ldVxDt x) s = .next (s.setV x s.dt) := rfl

theorem exec_ldDtVx : exec (.ldDtVx x) s = .next (s.setDt (s.getV x)) := rfl

theorem exec_ldStVx : exec (.ldStVx x) s = .next (s.setSt (s.getV x)) := rfl

/-- Settles O44: the handlers on the advanced state, then the tick. -/
theorem timerTransfers : Obligations.TimerTransfers := by
  refine ⟨fun x s => ⟨⟨_, exec_ldVxDt s x, s.getV_setV_self x _, frame_setV s x _⟩,
    ⟨_, exec_ldDtVx s x, rfl, frame_setDt s _⟩, ⟨_, exec_ldStVx s x, rfl, frame_setSt s _⟩⟩,
    fun x s w hs hw => ⟨fun hi => ?_, fun hi => ?_, fun hi => ?_⟩⟩
  · exact ⟨_, step_of_instr hs hw hi, s.advance.getV_setV_self x _, toNat_countDown _⟩
  · exact ⟨_, step_of_instr hs hw hi, toNat_countDown _⟩
  · exact ⟨_, step_of_instr hs hw hi, toNat_countDown _⟩

/-! ### LD VX, K -/

theorem exec_ldVxK_of_key {k : Nat} (h : s.firstKey = some k) :
    exec (.ldVxK x) s = .next (s.setV x (BitVec.ofNat 8 k)) := by
  simp only [exec, execLdVxK, h]

theorem exec_ldVxK_of_noKey (h : s.firstKey = none) :
    exec (.ldVxK x) s = .next (s.setPc (s.pc - 2)) := by
  simp only [exec, execLdVxK, h]

/-- Settles O45: the handler follows `State.firstKey`, the smallest pressed key. -/
theorem keyWaitTakesSmallestOrWaits : Obligations.KeyWaitTakesSmallestOrWaits := by
  intro x s
  refine ⟨fun k hk hdown hsmaller => ?_, fun hnone => ?_⟩
  · have hfirst := s.firstKey_eq_some.2 ⟨hk, hdown, hsmaller⟩
    refine ⟨_, exec_ldVxK_of_key s x hfirst, ?_, frame_setV s x _⟩
    rw [State.getV_setV_self, BitVec.toNat_ofNat]; omega
  · exact ⟨_, exec_ldVxK_of_noKey s x (s.firstKey_eq_none.2 hnone), rfl, frame_setPc s _⟩

/-! ### SKP and SKNP -/

variable {x}

theorem exec_skpVx_of_key (h : (s.getV x).toNat ≤ 15) :
    exec (.skpVx x) s = .next (s.skipIf (s.keyDown (s.getV x).toNat)) := by
  simp only [exec, execSkpVx, if_neg (Nat.not_lt.2 h)]

theorem exec_sknpVx_of_key (h : (s.getV x).toNat ≤ 15) :
    exec (.sknpVx x) s = .next (s.skipIf (!s.keyDown (s.getV x).toNat)) := by
  simp only [exec, execSknpVx, if_neg (Nat.not_lt.2 h)]

theorem exec_skpVx_of_noKey (h : 15 < (s.getV x).toNat) :
    exec (.skpVx x) s = raise (.keyOutOfRange (s.getV x)) (.skpVx x) s := by
  simp only [exec, execSkpVx, if_pos h]

theorem exec_sknpVx_of_noKey (h : 15 < (s.getV x).toNat) :
    exec (.sknpVx x) s = raise (.keyOutOfRange (s.getV x)) (.sknpVx x) s := by
  simp only [exec, execSknpVx, if_pos h]

/-- Settles O47: both are one conditional skip on the key's flag, or one error. -/
theorem keySkipsOrFail : Obligations.KeySkipsOrFail := by
  intro x s
  refine ⟨fun hkey => ⟨⟨_, exec_skpVx_of_key s hkey, s.toNat_pc_skipIf _, frame_skipIf s _⟩,
    ⟨_, exec_sknpVx_of_key s hkey, ?_, frame_skipIf s _⟩⟩,
    fun hkey => ⟨exec_skpVx_of_noKey s hkey, exec_sknpVx_of_noKey s hkey⟩⟩
  simp only [State.toNat_pc_skipIf, Bool.not_eq_true', ← Bool.not_eq_true, ite_not]

end Sys2Proof.Machine
end

section
/-! O49, O48, O24, O38, O42, O50, O51: what every handler does (spec/10_state.md to
spec/45_random_timers_keys.md). One split over the instructions says that a handler completes, what
it changes and that memory stays canonical; a second one that otherwise it raises an error. -/

namespace Sys2Proof.Machine

variable {i : Instr} {s t : State}

/-! ### Completion and frame -/

theorem wf_skipIf (c : Bool) (h : Memory.wf s.mem = true) : Memory.wf (s.skipIf c).mem = true := by
  rwa [State.skipIf_mem]

/-- A handler whose rule raises no error completes, changes only what its rule names, and keeps
memory canonical. -/
theorem exec_of_completes (hc : Completes i s) : ∃ t, exec i s = .next t ∧
    Frame (mayChange i) (storedAddrs i s) s t ∧
    (Memory.wf s.mem = true → Memory.wf t.mem = true) := by
  cases i
  case sysNnn => exact ⟨_, rfl, Frame.refl s _ _, id⟩
  case cls => exact ⟨_, rfl, frame_clearScreen s, id⟩
  case ret =>
    have hpop := s.pop_of_pos hc
    exact ⟨_, exec_ret_of_pop s hpop, (frame_pop s hpop).setPc_of_stack _, id⟩
  case callNnn =>
    have hpush := s.push_of_lt hc s.pc
    exact ⟨_, exec_callNnn_of_push s hpush, (frame_push s hpush).setPc_of_stack _, id⟩
  case jpNnn | jpV0Nnn => exact ⟨_, rfl, frame_setPc s _, id⟩
  case seVxKk | sneVxKk | seVxVy | sneVxVy => exact ⟨_, rfl, frame_skipIf s _, wf_skipIf _⟩
  case ldVxKk | addVxKk | ldVxVy | orVxVy | andVxVy | xorVxVy | rndVxKk | ldVxDt =>
    exact ⟨_, rfl, frame_setV s _ _, id⟩
  case addVxVy | subVxVy | shrVxVy | subnVxVy | shlVxVy =>
    exact ⟨_, rfl, frame_setResultFlag s _ _ _, id⟩
  case ldINnn | addIVx | ldFVx => exact ⟨_, rfl, frame_setI s _, id⟩
  case drwVxVyN x y n => exact ⟨_, exec_drwVxVyN_of_inMemory s hc, frame_drawSprite s x y n, id⟩
  case skpVx => exact ⟨_, exec_skpVx_of_key s hc, frame_skipIf s _, wf_skipIf _⟩
  case sknpVx => exact ⟨_, exec_sknpVx_of_key s hc, frame_skipIf s _, wf_skipIf _⟩
  case ldVxK x =>
    cases hkey : s.firstKey with
    | some k =>
      exact ⟨_, exec_ldVxK_of_key s x hkey,
        (frame_setV s x _).mono (by simp [mayChange]) (by simp), id⟩
    | none =>
      exact ⟨_, exec_ldVxK_of_noKey s x hkey,
        (frame_setPc s _).mono (by simp [mayChange]) (by simp), id⟩
  case ldDtVx => exact ⟨_, rfl, frame_setDt s _, id⟩
  case ldStVx => exact ⟨_, rfl, frame_setSt s _, id⟩
  case ldBVx x =>
    exact ⟨_, exec_ldBVx_of_writable s hc, frame_storeBcd s x, fun hwf =>
      Memory.wf_writeBytes hwf (Nat.succ_le_of_lt hc.2)⟩
  case ldMemVx x =>
    refine ⟨_, exec_ldMemVx_of_writable s hc, frame_storeBlock s x, fun hwf =>
      Memory.wf_writeBytes hwf ?_⟩
    rw [State.length_regsUpTo]
    exact hc.2
  case ldVxMem x => exact ⟨_, exec_ldVxMem_of_inMemory s hc, frame_loadBlock s x, id⟩

/-- The state with another stack; SP and the rest kept. -/
def State.withStack (s : State) (k : Vector Word 16) : State := { s with stack := k }

/-- A handler whose rule raises an error raises one, under its own instruction, whatever the stack's
slots hold: the checks read SP, I and the registers. -/
theorem exec_withStack_of_not_completes (hc : ¬ Completes i s) :
    ∃ c, ∀ k, exec i (s.withStack k) = raise c i (s.withStack k) := by
  cases i
  case ret =>
    have hempty : s.sp.val = 0 := Nat.eq_zero_of_not_pos hc
    exact ⟨.stackUnderflow, fun k => exec_ret_of_pop_none _ ((s.withStack k).pop_eq_none.2 hempty)⟩
  case callNnn =>
    have hfull : s.sp.val = 16 :=
      Nat.le_antisymm (Nat.le_of_lt_succ s.sp.isLt) (Nat.le_of_not_lt hc)
    exact ⟨.stackOverflow, fun k =>
      exec_callNnn_of_push_none _ ((s.withStack k).push_eq_none.2 hfull)⟩
  case drwVxVyN x y n =>
    obtain ⟨r, hr, hout⟩ : ∃ r, r < n.toNat ∧ 4096 ≤ s.i.toNat + r := by
      simpa [Completes] using hc
    have hn : n.toNat ≠ 0 := by omega
    have hlast : 4096 < s.i.toNat + n.toNat := by omega
    exact ⟨.addressOutOfRange (max s.i.toNat 4096), fun k =>
      exec_drwVxVyN_of_outOfMemory (s.withStack k) hn hlast⟩
  case skpVx x =>
    exact ⟨.keyOutOfRange (s.getV x), fun k =>
      exec_skpVx_of_noKey (s.withStack k) (Nat.lt_of_not_le hc)⟩
  case sknpVx x =>
    exact ⟨.keyOutOfRange (s.getV x), fun k =>
      exec_sknpVx_of_noKey (s.withStack k) (Nat.lt_of_not_le hc)⟩
  case ldBVx =>
    by_cases hlow : s.i.toNat ≤ 0x1FF
    · exact ⟨.reservedWrite s.i.toNat, fun k => exec_ldBVx_of_reserved (s.withStack k) hlow⟩
    · have hout : 4096 ≤ s.i.toNat + 2 := Nat.le_of_not_lt fun h => hc ⟨Nat.lt_of_not_le hlow, h⟩
      exact ⟨.addressOutOfRange (max s.i.toNat 4096), fun k =>
        exec_ldBVx_of_outOfMemory (s.withStack k) hout⟩
  case ldMemVx x =>
    by_cases hlow : s.i.toNat ≤ 0x1FF
    · exact ⟨.reservedWrite s.i.toNat, fun k => exec_ldMemVx_of_reserved (s.withStack k) hlow⟩
    · have hlow := Nat.lt_of_not_le hlow
      have hout : 4096 ≤ s.i.toNat + x.val := Nat.le_of_not_lt fun h => hc ⟨hlow, h⟩
      exact ⟨.addressOutOfRange (max s.i.toNat 4096), fun k =>
        exec_ldMemVx_of_outOfMemory (s.withStack k) hlow hout⟩
  case ldVxMem =>
    exact ⟨.addressOutOfRange (max s.i.toNat 4096), fun k =>
      exec_ldVxMem_of_outOfMemory (s.withStack k) (Nat.le_of_not_lt hc)⟩
  all_goals exact absurd trivial hc

theorem exec_of_not_completes (hc : ¬ Completes i s) : ∃ c, exec i s = raise c i s := by
  obtain ⟨c, h⟩ := exec_withStack_of_not_completes hc
  exact ⟨c, h s.stack⟩

/-- Settles O49: the two splits over the instructions; a raise is a fault. -/
theorem handlerCompletesExactlyWhen : Obligations.HandlerCompletesExactlyWhen := by
  intro i s
  refine ⟨fun hc => ?_, fun hc => ?_⟩
  · obtain ⟨t, ht, -, -⟩ := exec_of_completes hc
    exact ⟨t, ht⟩
  · obtain ⟨c, h⟩ := exec_of_not_completes hc
    exact ⟨_, h⟩

/-! ### What a completed handler tells -/

theorem next_inj {o : Host.Outcome State Fault Refusal} {u : State} (ht : o = .next t)
    (hu : o = .next u) : t = u :=
  Host.Outcome.next.inj (ht.symm.trans hu)

theorem completes_of_exec (h : exec i s = .next t) : Completes i s := by
  by_contra hc
  obtain ⟨c, hraise⟩ := exec_of_not_completes hc
  rw [hraise] at h
  cases h

/-- Settles O48: the completed handler is the one of `exec_of_completes`. -/
theorem handlersChangeOnlyTheirOwn : Obligations.HandlersChangeOnlyTheirOwn := by
  intro i s t h
  obtain ⟨u, hu, hframe, -⟩ := exec_of_completes (completes_of_exec h)
  exact next_inj h hu ▸ hframe

theorem wf_of_exec (h : exec i s = .next t) (hwf : Memory.wf s.mem = true) :
    Memory.wf t.mem = true := by
  obtain ⟨u, hu, -, hkeep⟩ := exec_of_completes (completes_of_exec h)
  exact next_inj h hu ▸ hkeep hwf

/-- An error of a handler records the instruction's address and word (R150). -/
theorem exists_toFault_of_exec {e : Fault} (h : exec i s = .fault e) :
    ∃ c : ErrorCause, e = c.toFault s.instrAddr (encode i) := by
  by_cases hc : Completes i s
  · obtain ⟨t, ht, -, -⟩ := exec_of_completes hc
    rw [ht] at h
    cases h
  · obtain ⟨c, hraise⟩ := exec_of_not_completes hc
    rw [hraise] at h
    exact ⟨c, (Host.Outcome.fault.inj h).symm⟩

theorem eq_of_exec_callNnn {nnn : Addr12} (h : exec (.callNnn nnn) s = .next t) :
    ∃ hroom : s.sp.val < 16, t = State.setPc { s with
      stack := s.stack.set s.sp.val s.pc
      sp := ⟨s.sp.val + 1, by omega⟩ } (addrOf nnn) :=
  have hroom : s.sp.val < 16 := completes_of_exec h
  ⟨hroom, next_inj h (exec_callNnn_of_push s (s.push_of_lt hroom s.pc))⟩

/-- Settles O24: the slot that RET pops is the one that CALL filled, since SP is one above it. -/
theorem returnUndoesCall : Obligations.ReturnUndoesCall := by
  intro nnn s t u hcall hstack hsp
  obtain ⟨hroom, rfl⟩ := eq_of_exec_callNnn hcall
  simp only [State.setPc_stack, State.setPc_sp] at hstack hsp
  have hspVal : u.sp.val = s.sp.val + 1 := congrArg Fin.val hsp
  have hpop := u.pop_of_pos (by omega)
  refine ⟨_, exec_ret_of_pop u hpop, ?_, ?_, fun k hk hlt => ?_⟩
  · simp [hstack, hspVal]
  · exact Fin.ext (by simp [hspVal])
  · have hne : s.sp.val ≠ k := by omega
    simp [hstack, hne]

/-- Settles O38: the fetch reads memory, where the store left V[k] and V[k + 1] side by side. -/
theorem storedBytesAreFetchedNext : Obligations.StoredBytesAreFetchedNext := by
  intro x s t hexec k hk j hj
  have hok : 0x1FF < s.i.toNat ∧ s.i.toNat + x.val < 4096 := completes_of_exec hexec
  obtain rfl := next_inj hexec (exec_ldMemVx_of_writable s hok)
  have hpc : (s.i + BitVec.ofNat 16 k.val).toNat = s.i.toNat + k.val := by
    rw [BitVec.toNat_add, BitVec.toNat_ofNat]; omega
  have hnext : s.i.toNat + k.val + 1 = s.i.toNat + j.val := by omega
  have hhi := s.readByte_storeBlock (k := k) (x := x) (Fin.le_def.2 (by omega))
  have hlo := s.readByte_storeBlock (k := j) (x := x) (Fin.le_def.2 (by omega))
  rw [State.fetch_ok _ (by simp only [hpc]; omega)]
  simp only [hpc, hnext]
  exact congrArg Except.ok (congrArg₂ joinBytes hhi hlo)

/-- Settles O42: the second draw is at the same place, over the pixels that the first one flipped. -/
theorem drawingTwiceRestoresFramebuffer : Obligations.DrawingTwiceRestoresFramebuffer := by
  intro x y n s t hx hy hexec
  have hin : ∀ r, r < n.toNat → s.i.toNat + r < 4096 := completes_of_exec hexec
  obtain rfl := next_inj hexec (exec_drwVxVyN_of_inMemory s hin)
  exact ⟨_, exec_drwVxVyN_of_inMemory _ hin, fb_drawSprite_drawSprite s n hx hy,
    (getV_regF_drawSprite_eq_one_iff _ x y n).trans (collides_drawSprite_iff s n hx hy)⟩

/-! ### Which instruction may change which part -/

theorem mem_regsThrough_iff {x : Reg} {p : Piece} : p ∈ regsThrough x ↔ ∃ r ≤ x, p = .v r := by
  simp only [regsThrough, List.mem_filterMap, List.mem_finRange, true_and,
    Option.ite_none_right_eq_some, Option.some.injEq, @eq_comm _ p]

theorem flagByte_eq (c : Bool) : flagByte c = 0 ∨ flagByte c = 1 := by
  cases c
  · exact .inl rfl
  · exact .inr rfl

/-- VF after an instruction with a result and a flag is the flag. -/
theorem getV_regF_setResultFlag_flagByte (x : Reg) (b : Byte) (c : Bool) :
    (s.setResultFlag x b (flagByte c)).getV regF = 0 ∨
      (s.setResultFlag x b (flagByte c)).getV regF = 1 := by
  rw [State.getV_setResultFlag_regF]
  exact flagByte_eq c

/-- Settles O50: six instructions leave a flag in VF; the frame of every other has VF only as V[x]. -/
theorem vfWritersAreExactlyThese : Obligations.VfWritersAreExactlyThese := by
  intro i s t h
  have hframe := handlersChangeOnlyTheirOwn i s t h
  cases i
  case addVxVy | subVxVy | shrVxVy | subnVxVy | shlVxVy =>
    cases h
    exact getV_regF_setResultFlag_flagByte _ _ _
  case drwVxVyN x y n =>
    obtain rfl := next_inj h (exec_drwVxVyN_of_inMemory s (completes_of_exec h))
    simpa using flagByte_eq _
  case ldVxKk | addVxKk | ldVxVy | orVxVy | andVxVy | xorVxVy | rndVxKk | ldVxDt | ldVxK =>
    exact fun hx => hframe.v regF (by simp [mayChange, hx.symm])
  case ldVxMem x =>
    refine fun hx => hframe.v regF ?_
    have hlt : ¬ regF ≤ x := fun hle => hx (Fin.le_antisymm (Fin.le_last x) hle)
    simpa [mayChange] using hlt
  all_goals exact hframe.v regF (by simp [mayChange])

/-- Settles O51: CLS and DRW write the flag; the frame of every other leaves it. -/
theorem dirtySetByDrawingOnly : Obligations.DirtySetByDrawingOnly := by
  intro i s t h
  have hframe := handlersChangeOnlyTheirOwn i s t h
  cases i
  case cls => cases h; rfl
  case drwVxVyN => obtain rfl := next_inj h (exec_drwVxVyN_of_inMemory s (completes_of_exec h)); rfl
  all_goals exact hframe.dirty (by simp [mayChange, mem_regsThrough_iff])

end Sys2Proof.Machine
end

section
/-! O3, O15, O16, O17, O46, O52: every step (spec/40_cycle_driver.md R81 to R90). A completed step
is the handler of the decoded instruction on the advanced state, and then the tick. -/

namespace Sys2Proof.Machine

variable {i : Instr} {s t : State} {w : Word}

/-! ### What a step was -/

theorem step_instr_eq_next (h : step s = .next t) (hw : s.fetch = .ok w)
    (hi : decodeWord w = .instr i) : ∃ u, exec i s.advance = .next u ∧ t = u.tick.nextDraw := by
  rw [step_of_instr (step_eq_next s h).1 hw hi] at h
  exact finishStep_eq_next h

theorem step_unassigned_eq_next {v : Word} (h : step s = .next t) (hw : s.fetch = .ok w)
    (hv : decodeWord w = .unassigned v) : t = s.advance.tick.nextDraw :=
  next_inj h (step_of_unassigned (step_eq_next s h).1 hw hv)

theorem status_of_step_fault {e : Fault} (h : step s = .fault e) : s.status = .ready := by
  by_contra hs
  rw [noStepUnlessReady s hs] at h
  cases h

theorem finishStep_eq_fault {o : Host.Outcome State Fault Refusal} {e : Fault}
    (h : finishStep o = .fault e) : o = .fault e := by
  cases o with
  | next u => cases h
  | fault f => exact h
  | refused r => cases h

/-- Settles O17: a failed fetch, or an error of the handler, which records the decoded instruction's
word; that is the fetched word (O7). -/
theorem errorRecordsAddressAndWord : Obligations.ErrorRecordsAddressAndWord := by
  intro s e h
  have hs := status_of_step_fault h
  by_cases hpc : s.pc.toNat + 1 < 4096
  · refine .inl ⟨hpc, ?_⟩
    have hw := s.fetch_ok hpc
    cases hdec : decodeWord (joinBytes (s.readByte s.pc.toNat) (s.readByte (s.pc.toNat + 1))) with
    | unassigned v =>
      rw [step_of_unassigned hs hw hdec] at h
      cases h
    | instr i =>
      rw [step_of_instr hs hw hdec] at h
      obtain ⟨c, rfl⟩ := exists_toFault_of_exec (finishStep_eq_fault h)
      obtain ⟨henc, -⟩ := encodeOfDecodeIsIdentity _ i hdec
      rw [ErrorCause.toFault_pc0, ErrorCause.toFault_word, State.instrAddr_advance, henc]
      exact ⟨rfl, rfl⟩
  · have hout : 4096 ≤ s.pc.toNat + 1 := Nat.le_of_not_lt hpc
    rw [step_of_pc_out_of_memory hs hout] at h
    exact .inr ⟨hout, (Host.Outcome.fault.inj h).symm⟩

/-! ### The timers -/

theorem dt_mem_mayChange : Piece.dt ∈ mayChange i ↔ ∃ x, i = .ldDtVx x := by
  cases i <;> simp [mayChange, mem_regsThrough_iff]

theorem st_mem_mayChange : Piece.st ∈ mayChange i ↔ ∃ x, i = .ldStVx x := by
  cases i <;> simp [mayChange, mem_regsThrough_iff]

theorem dt_of_exec (h : exec i s = .next t) (hne : ∀ x, i ≠ .ldDtVx x) : t.dt = s.dt :=
  (handlersChangeOnlyTheirOwn i s t h).dt fun hmem =>
    (dt_mem_mayChange.1 hmem).elim hne

theorem st_of_exec (h : exec i s = .next t) (hne : ∀ x, i ≠ .ldStVx x) : t.st = s.st :=
  (handlersChangeOnlyTheirOwn i s t h).st fun hmem =>
    (st_mem_mayChange.1 hmem).elim hne

/-- Settles O15: the tick counts down from what the handler left, which is what the timers were but
for LD DT and LD ST. -/
theorem timersTickOnceAStep : Obligations.TimersTickOnceAStep := by
  intro s t w h hw
  cases hdec : decodeWord w with
  | unassigned v =>
    obtain rfl := step_unassigned_eq_next h hw hdec
    exact ⟨fun _ => toNat_countDown _, nofun, fun _ => toNat_countDown _, nofun⟩
  | instr i =>
    obtain ⟨u, hu, rfl⟩ := step_instr_eq_next h hw hdec
    simp only [ne_eq, Decoded.instr.injEq, State.nextDraw_dt, State.tick_dt, State.nextDraw_st,
      State.tick_st, toNat_countDown]
    refine ⟨fun hne => ?_, ?_, fun hne => ?_, ?_⟩
    · rw [dt_of_exec hu hne, State.advance_dt]
    · rintro x rfl; cases hu; rfl
    · rw [st_of_exec hu hne, State.advance_st]
    · rintro x rfl; cases hu; rfl

/-! ### The program counter -/

/-- PC after a skip on top of the advance (R83, R11). -/
theorem pc_skipIf_advance (s : State) (c : Bool) :
    (s.advance.skipIf c).pc = s.pc + 2 ∨ (s.advance.skipIf c).pc = s.pc + 4 := by
  cases c
  · exact .inl rfl
  · exact .inr (BitVec.add_assoc s.pc 2 2)

theorem pc_sub_two_advance (s : State) : s.advance.pc - 2 = s.pc := State.instrAddr_advance s

/-- Settles O16: the targets of the jumps, the two values of a skip and of a key-wait; the frame of
every other handler leaves the advanced PC. -/
theorem completedStepSetsPc : Obligations.CompletedStepSetsPc := by
  intro s t w h hw
  cases hdec : decodeWord w with
  | unassigned v =>
    obtain rfl := step_unassigned_eq_next h hw hdec
    rfl
  | instr i =>
    obtain ⟨u, hu, rfl⟩ := step_instr_eq_next h hw hdec
    have hframe := handlersChangeOnlyTheirOwn i _ u hu
    cases i
    case jpNnn nnn => cases hu; exact toNat_addrOf nnn
    case callNnn nnn => obtain ⟨_, rfl⟩ := eq_of_exec_callNnn hu; exact toNat_addrOf nnn
    case jpV0Nnn nnn => cases hu; exact toNat_addrOf_add_byte nnn _
    case ret =>
      have hpos : 0 < s.sp.val := completes_of_exec hu
      obtain rfl := next_inj hu (exec_ret_of_pop _ (s.advance.pop_of_pos hpos))
      exact ⟨hpos, rfl⟩
    case seVxKk | sneVxKk | seVxVy | sneVxVy => cases hu; exact pc_skipIf_advance s _
    case skpVx =>
      obtain rfl := next_inj hu (exec_skpVx_of_key _ (completes_of_exec hu))
      exact pc_skipIf_advance s _
    case sknpVx =>
      obtain rfl := next_inj hu (exec_sknpVx_of_key _ (completes_of_exec hu))
      exact pc_skipIf_advance s _
    case ldVxK x =>
      cases hkey : s.advance.firstKey with
      | none =>
        obtain rfl := next_inj hu (exec_ldVxK_of_noKey _ x hkey)
        exact .inl (pc_sub_two_advance s)
      | some k =>
        obtain rfl := next_inj hu (exec_ldVxK_of_key _ x hkey)
        exact .inr rfl
    all_goals exact hframe.pc (by simp [mayChange, mem_regsThrough_iff])

/-! ### The memory invariant -/

/-- The invariant speaks of memory only. -/
theorem MemoryInv.of_mem_eq (h : MemoryInv s) (hmem : t.mem = s.mem) : MemoryInv t where
  memWf := hmem ▸ h.memWf
  reserved a ha := (congrArg (Memory.read · a) hmem).trans (h.reserved a ha)

/-- A completing handler stores only above the reserved area (R48, R129, R130). -/
theorem reservedHi_lt_of_mem_storedAddrs (hc : Completes i s) {a : Nat} (ha : a ∈ storedAddrs i s) :
    Config.reservedHi < a := by
  cases i
  case ldBVx | ldMemVx =>
    obtain ⟨hlow, -⟩ := hc
    obtain ⟨k, -, rfl⟩ := List.mem_map.1 ha
    exact Nat.lt_add_right k hlow
  all_goals exact absurd ha List.not_mem_nil

/-- Every completed handler keeps the invariant: it keeps memory canonical, and every address of the
reserved area lies outside its frame. -/
theorem memoryInv_of_exec (h : exec i s = .next t) (hinv : MemoryInv s) : MemoryInv t where
  memWf := wf_of_exec h hinv.memWf
  reserved a ha := by
    have hout : a ∉ storedAddrs i s := fun hmem =>
      Nat.not_lt.2 ha (reservedHi_lt_of_mem_storedAddrs (completes_of_exec h) hmem)
    exact ((handlersChangeOnlyTheirOwn i s t h).mem a hout).trans (hinv.reserved a ha)

/-- Settles O3: advance and tick leave memory, and the handler keeps the invariant. -/
theorem stepKeepsMemoryInvariant : Obligations.StepKeepsMemoryInvariant := by
  intro s t hinv h
  obtain ⟨-, w, u, hw, -, -⟩ := step_eq_next s h
  cases hdec : decodeWord w with
  | unassigned v =>
    obtain rfl := step_unassigned_eq_next h hw hdec
    exact hinv.of_mem_eq rfl
  | instr i =>
    obtain ⟨u, hu, rfl⟩ := step_instr_eq_next h hw hdec
    exact (memoryInv_of_exec hu (hinv.of_mem_eq rfl)).of_mem_eq rfl

/-! ### The key-wait -/

/-- A key-wait with no key pressed goes back to its own address, so its step only ticks (R143). -/
theorem step_keyWait {x : Reg} (hs : s.status = .ready) (hw : s.fetch = .ok w)
    (hi : decodeWord w = .instr (.ldVxK x)) (hkeys : ∀ k, k < 16 → s.keyDown k = false) :
    step s = .next s.tick.nextDraw := by
  have hnone : s.advance.firstKey = none := s.advance.firstKey_eq_none.2 hkeys
  have hback : s.advance.setPc (s.advance.pc - 2) = s := by
    rw [pc_sub_two_advance]; rfl
  rw [step_of_instr hs hw hi, exec_ldVxK_of_noKey _ x hnone, hback, finishStep]

/-- The draw number is no part of what a frame restricts but for being kept. -/
theorem Frame.withDrawCount {may : List Piece} {stored : List Nat} (h : Frame may stored s t)
    (d : Nat) : Frame may stored { s with drawCount := d } { t with drawCount := d } :=
  { h with drawCount := rfl }

/-- Settles O46: by induction on the number of steps; after each the same word is fetched and no key
is pressed, and what is left is the tick of each step. -/
theorem keyWaitHoldsPcForEver : Obligations.KeyWaitHoldsPcForEver := by
  intro s w x n
  induction n generalizing s with
  | zero => exact fun _ _ _ _ => ⟨s, rfl, rfl, rfl, Frame.refl s _ _⟩
  | succ n ih =>
    intro hs hw hi hkeys
    obtain ⟨t, hrun, hdt, hst, hframe⟩ := ih s.tick.nextDraw hs hw hi hkeys
    refine ⟨t, ?_, ?_, ?_, (frame_tick_nextDraw s).trans (hframe.withDrawCount s.drawCount)⟩
    · rw [core_run_succ_of_next (step_keyWait hs hw hi hkeys), hrun]
    · rw [hdt, State.nextDraw_dt, State.tick_dt, toNat_countDown]; omega
    · rw [hst, State.nextDraw_st, State.tick_st, toNat_countDown]; omega

/-! ### Stale slots -/

/-- `k` holds the slots below SP of `s` (R23). -/
def SlotsBelow (s : State) (k : Vector Word 16) : Prop :=
  ∀ j, (h : j < 16) → j < s.sp.val → k[j] = s.stack[j]

theorem agreeUpToStale_iff : AgreeUpToStale s t ↔ ∃ k, SlotsBelow s k ∧ t = s.withStack k :=
  ⟨fun h => ⟨t.stack, h.slots, h.rest⟩, by rintro ⟨k, hk, rfl⟩; exact ⟨hk, rfl⟩⟩

theorem OutcomesAgree.of_eq {o p o' p' : Host.Outcome State Fault Refusal} (ho : o' = o)
    (hp : p' = p) (h : OutcomesAgree o p) : OutcomesAgree o' p' := by
  rwa [ho, hp]

section
variable {k : Vector Word 16}

theorem agreeUpToStale_skipIf (hk : SlotsBelow s k) (c : Bool) :
    AgreeUpToStale (s.skipIf c) ((s.withStack k).skipIf c) := by
  cases c
  · exact ⟨hk, rfl⟩
  · exact ⟨hk, rfl⟩

/-- RET reads the slot below SP, which both states hold. -/
theorem outcomesAgree_exec_ret (hk : SlotsBelow s k) (hpos : 0 < s.sp.val) :
    OutcomesAgree (exec .ret s) (exec .ret (s.withStack k)) := by
  have hslot : k[s.sp.val - 1] = s.stack[s.sp.val - 1] := hk _ (by omega) (by omega)
  refine .of_eq (exec_ret_of_pop s (s.pop_of_pos hpos))
    (exec_ret_of_pop (s.withStack k) ((s.withStack k).pop_of_pos hpos)) ⟨fun j hj hlt => ?_, ?_⟩
  · exact hk j hj (lt_of_lt_of_le hlt (Nat.sub_le _ _))
  · exact congrArg (State.setPc { s.withStack k with sp := ⟨s.sp.val - 1, by omega⟩ }) hslot

/-- CALL fills the slot at SP with the same address, and no other slot comes below the new SP. -/
theorem outcomesAgree_exec_callNnn {nnn : Addr12} (hk : SlotsBelow s k) (hroom : s.sp.val < 16) :
    OutcomesAgree (exec (.callNnn nnn) s) (exec (.callNnn nnn) (s.withStack k)) := by
  refine .of_eq (exec_callNnn_of_push s (s.push_of_lt hroom _))
    (exec_callNnn_of_push (s.withStack k) ((s.withStack k).push_of_lt hroom _))
    ⟨fun j hj hlt => ?_, rfl⟩
  have hlt : j < s.sp.val + 1 := hlt
  by_cases hsp : s.sp.val = j
  · simp [hsp, State.withStack]
  · simpa [hsp, State.withStack] using hk j hj (by omega)

/-- Only CALL and RET touch the stack; every other handler does the same to both states. -/
theorem outcomesAgree_exec (i : Instr) (hk : SlotsBelow s k) :
    OutcomesAgree (exec i s) (exec i (s.withStack k)) := by
  by_cases hc : Completes i s
  · cases i
    case ret => exact outcomesAgree_exec_ret hk hc
    case callNnn => exact outcomesAgree_exec_callNnn hk hc
    case seVxKk | sneVxKk | seVxVy | sneVxVy => exact agreeUpToStale_skipIf hk _
    case skpVx =>
      exact .of_eq (exec_skpVx_of_key s hc) (exec_skpVx_of_key (s.withStack k) hc)
        (agreeUpToStale_skipIf hk _)
    case sknpVx =>
      exact .of_eq (exec_sknpVx_of_key s hc) (exec_sknpVx_of_key (s.withStack k) hc)
        (agreeUpToStale_skipIf hk _)
    case drwVxVyN =>
      exact .of_eq (exec_drwVxVyN_of_inMemory s hc) (exec_drwVxVyN_of_inMemory (s.withStack k) hc)
        ⟨hk, rfl⟩
    case ldVxK x =>
      cases hkey : s.firstKey with
      | none =>
        exact .of_eq (exec_ldVxK_of_noKey s x hkey) (exec_ldVxK_of_noKey (s.withStack k) x hkey)
          ⟨hk, rfl⟩
      | some key =>
        exact .of_eq (exec_ldVxK_of_key s x hkey) (exec_ldVxK_of_key (s.withStack k) x hkey)
          ⟨hk, rfl⟩
    case ldBVx =>
      exact .of_eq (exec_ldBVx_of_writable s hc) (exec_ldBVx_of_writable (s.withStack k) hc)
        ⟨hk, rfl⟩
    case ldMemVx =>
      exact .of_eq (exec_ldMemVx_of_writable s hc) (exec_ldMemVx_of_writable (s.withStack k) hc)
        ⟨hk, rfl⟩
    case ldVxMem =>
      exact .of_eq (exec_ldVxMem_of_inMemory s hc) (exec_ldVxMem_of_inMemory (s.withStack k) hc)
        ⟨hk, rfl⟩
    all_goals exact ⟨hk, rfl⟩
  · obtain ⟨c, hraise⟩ := exec_withStack_of_not_completes hc
    exact .of_eq (hraise s.stack) (hraise k) rfl

end

/-- The tick and the draw number leave the stack and SP. -/
theorem outcomesAgree_finishStep {o p : Host.Outcome State Fault Refusal} (h : OutcomesAgree o p) :
    OutcomesAgree (finishStep o) (finishStep p) := by
  cases o <;> cases p
  case next.next s t =>
    obtain ⟨k, hk, rfl⟩ := agreeUpToStale_iff.1 h
    exact ⟨hk, rfl⟩
  all_goals exact h

/-- Settles O52: status and fetch do not read the stack, so both states run the same handler. -/
theorem staleSlotsCannotBeRead : Obligations.StaleSlotsCannotBeRead := by
  intro s t h
  obtain ⟨k, hk, rfl⟩ := agreeUpToStale_iff.1 h
  have hk' : SlotsBelow s.advance k := hk
  by_cases hs : s.status = .ready
  · cases hw : s.fetch with
    | error e =>
      exact .of_eq (step_of_fetch_error hs hw) (step_of_fetch_error (s := s.withStack k) hs hw) rfl
    | ok w =>
      refine .of_eq (step_of_fetch s hs hw) (step_of_fetch (s.withStack k) hs hw)
        (outcomesAgree_finishStep ?_)
      cases hdec : decodeWord w with
      | unassigned v =>
        exact .of_eq (dispatchWord_unassigned hdec _) (dispatchWord_unassigned hdec _) ⟨hk', rfl⟩
      | instr i =>
        exact .of_eq (dispatchWord_instr hdec _) (dispatchWord_instr hdec _)
          (outcomesAgree_exec i hk')
  · exact .of_eq (noStepUnlessReady s hs) (noStepUnlessReady (s.withStack k) hs) rfl

end Sys2Proof.Machine
end

section
/-! O53, O54, O4: the host's calls (spec/60_exceptions.md R150, R162, spec/70_reset_and_hazards.md
R171, R172). -/

namespace Sys2Proof.Machine

variable {s : State} {bytes : List Byte}

/-! ### step() -/

theorem hostStep_of_fault {e : Fault} (h : step s = .fault e) :
    hostStep s = (.error e, failedState e s) := by
  rw [hostStep, h]

theorem hostStep_of_not_ready (h : s.status ≠ .ready) : hostStep s = (.notPermitted, s) := by
  rw [hostStep, noStepUnlessReady s h]

/-- Settles O54: the state after the error has the status Failed, from which no step is permitted. -/
theorem errorFailsTheMachine : Obligations.ErrorFailsTheMachine := by
  intro s e h
  rw [hostStep_of_fault h]
  exact ⟨rfl, rfl, hostStep_of_not_ready (s := failedState e s) nofun, rfl⟩

/-! ### loadProgram -/

theorem loadProgram_of_fits (h : bytes.length ≤ 3584) (s : State) : loadProgram bytes s =
    (.ok, { s with mem := Memory.writeBytes s.mem Config.programBase bytes }) :=
  if_neg (Nat.not_lt.2 h)

theorem loadProgram_of_too_long (h : 3584 < bytes.length) (s : State) : loadProgram bytes s =
    (.error (.oversizedProgram bytes.length), { s with
      mem := Memory.ofBytes (Config.byteAfterFailedLoad bytes s.mem)
      status := .unloadable }) :=
  if_pos h

/-- Settles O53: a program that fits is one run of stored bytes; one that does not leaves a status
from which no step is permitted. -/
theorem loadProgramCopiesOrFails : Obligations.LoadProgramCopiesOrFails := by
  intro bytes s
  refine ⟨fun hfits => ?_, fun hlong => ?_⟩
  · rw [loadProgram_of_fits hfits]
    exact ⟨rfl, fun k hk => Memory.read_writeBytes_of_lt _ _ k bytes hk, frame_writeBytes s _ bytes⟩
  · have hstatus : (loadProgram bytes s).2.status = .unloadable := by
      rw [loadProgram_of_too_long hlong]
    have hnot : (loadProgram bytes s).2.status ≠ .ready := hstatus ▸ nofun
    exact ⟨by rw [loadProgram_of_too_long hlong], hstatus, by rw [hostStep_of_not_ready hnot]⟩

/-! ### The invariant of a Ready machine -/

/-- A Ready machine has the memory invariant; of another nothing is asked. -/
def InvWhileReady (s : State) : Prop := s.status = .ready → MemoryInv s

/-- A program that fits lies between the reserved area and the end of memory. -/
theorem memoryInv_of_load (hfits : bytes.length ≤ 3584) (h : MemoryInv s) :
    MemoryInv { s with mem := Memory.writeBytes s.mem Config.programBase bytes } where
  memWf := Memory.wf_writeBytes h.memWf (by simp only [Config.programBase, Config.memSize]; omega)
  reserved a ha := by
    have hbelow : a < Config.programBase := Nat.lt_succ_of_le ha
    exact (Memory.read_writeBytes_outside _ _ _ _ (.inl hbelow)).trans (h.reserved a ha)

theorem invWhileReady_loadProgram (bytes : List Byte) (h : InvWhileReady s) :
    InvWhileReady (loadProgram bytes s).2 := by
  by_cases hfits : bytes.length ≤ 3584
  · rw [loadProgram_of_fits hfits]
    exact fun hready => memoryInv_of_load hfits (h hready)
  · rw [loadProgram_of_too_long (Nat.lt_of_not_le hfits)]
    exact nofun

/-- A completed step began Ready (O3); after an error the status is Failed, and a refused call
changes nothing. -/
theorem invWhileReady_hostStep (h : InvWhileReady s) : InvWhileReady (hostStep s).2 := by
  by_cases hs : s.status = .ready
  · cases hstep : step s with
    | next t =>
      rw [hostStep, hstep]
      exact fun _ => stepKeepsMemoryInvariant s t (h hs) hstep
    | fault e =>
      rw [hostStep_of_fault hstep]
      exact nofun
    | refused r =>
      rw [hostStep, hstep]
      exact h
  · rw [hostStep_of_not_ready hs]
    exact h

theorem invWhileReady_run (c : HostCall) (h : InvWhileReady s) : InvWhileReady (c.run s) := by
  cases c with
  | initializeMachine => exact fun _ => resetSatisfiesInvariant.of_mem_eq rfl
  | loadProgram bytes => exact invWhileReady_loadProgram bytes h
  | step => exact invWhileReady_hostStep h
  | clearDirty => exact fun hready => (h hready).of_mem_eq rfl
  | writeKeypad keys => exact fun hready => (h hready).of_mem_eq rfl

theorem invWhileReady_runCalls (calls : List HostCall) (h : InvWhileReady s) :
    InvWhileReady (runCalls calls s) := by
  induction calls generalizing s with
  | nil => exact h
  | cons c rest ih => exact ih (invWhileReady_run c h)

/-- Settles O4: each call keeps it, and so does a sequence of calls from reset, by induction on the
calls. -/
theorem hostCallsKeepInvariantWhileReady : Obligations.HostCallsKeepInvariantWhileReady :=
  ⟨fun c _ h => invWhileReady_run c h,
    fun calls => invWhileReady_runCalls calls fun _ => resetSatisfiesInvariant⟩

end Sys2Proof.Machine
end
